-- ==== Sys2Proof/Word.lean ====
section
/-! DEFINITION. The words of the machine: 32-bit registers, addresses and instructions, 8-bit bytes, 5-bit register
indexes (00_scope.md R6, R10). -/

namespace Sys2Proof

/-- A register value, an address, a memory word, an instruction word: 32 bits (R6, R10). -/
abbrev Word := BitVec 32

/-- One byte of memory: 8 bits (R6; PRESUMED, log entry 22). -/
abbrev Byte := BitVec 8

/-- A register index, the 5-bit field of an instruction word (R14, R61, R63, R64). -/
abbrev RegIdx := BitVec 5

/-- INSTR_SIZE, the 4 bytes by which the program counter advances (R6, R57). -/
def instrSize : Word := 4

end Sys2Proof
end

