-- ==== Sys2Proof/Machine/Flags.lean ====
section
/-! DEFINITION. There are no flags (10_state.md R23): a comparison is made and used inside one instruction. These are the
comparisons. -/

namespace Sys2Proof.Machine

/-- Equality of all 32 bits (44_branch.md R148). -/
def isEqual (a b : Word) : Bool := decide (a = b)

/-- s(a) < s(b), a true comparison of two's-complement values (41_integer_register.md R135, 44_branch.md R150). -/
def isLessSigned (a b : Word) : Bool := decide (a.toInt < b.toInt)

/-- The 32-bit number 1 or 0 (R135). -/
def boolWord (c : Bool) : Word := if c then 1 else 0

end Sys2Proof.Machine
end

