-- ==== Sys2Proof/Config.lean ====
section
/-! DEFINITION. What an implementation fixes: the shape of the opcode constants (30_encoding.md R84 to R86) and the bound
on MEM_SIZE (00_scope.md R7). The default VALUES of the constants stand in Decode.lean (`opcodes`), those of RESET_PC and
of the memory size after reset in Machine/Params.lean. The machine has no free values (40_step_cycle.md R131). -/

namespace Sys2Proof

/-- The numeric constants the spec leaves open as named parameters (R8, R84, R85; decision D1, log entry 1): an argument of
the codec, the step, the host port and the assembler. The funct3 of BLT is a parameter of its own (R86; decision D2, log
entry 2). -/
structure OpcodeTable where
  opLoad : BitVec 7
  opIType : BitVec 7
  opStore : BitVec 7
  opRType : BitVec 7
  opBranch : BitVec 7
  opJalr : BitVec 7
  opJal : BitVec 7
  f3AddSub : BitVec 3
  f3Slt : BitVec 3
  f3Addi : BitVec 3
  f3Slli : BitVec 3
  f3Lw : BitVec 3
  f3Sw : BitVec 3
  f3Beq : BitVec 3
  f3Bne : BitVec 3
  f3Blt : BitVec 3
  f7Add : BitVec 7
  f7Sub : BitVec 7
  deriving DecidableEq, Repr

/-- The only constraints the document puts on the constants: the seven opcodes are pairwise different (R84), and under one
class the secondary constants differ from each other (R85). -/
def OpcodeTable.distinct (t : OpcodeTable) : Bool :=
  decide ([t.opLoad, t.opIType, t.opStore, t.opRType, t.opBranch, t.opJalr, t.opJal].Nodup)
    && decide (t.f3AddSub ≠ t.f3Slt) && decide (t.f3Addi ≠ t.f3Slli)
    && decide ([t.f3Beq, t.f3Bne, t.f3Blt].Nodup) && decide (t.f7Add ≠ t.f7Sub)

/-- The largest MEM_SIZE: 2^32 bytes, all that a 32-bit address reaches (R7). -/
def Config.maxMemSize : Nat := 2 ^ 32

end Sys2Proof
end

