-- ==== Sys2Proof/Syntax.lean ====
section
/-! DEFINITION. The instructions: one constructor per row of spec/opcode_table.json, the opcode classes and the formats. -/

namespace Sys2Proof

/-- The opcode class, an eight-valued enumeration (30_encoding.md R82, R95; decision D18, log entry 17). -/
inductive OpClass where
  | rType
  | iType
  | load
  | store
  | branch
  | jal
  | jalr
  | invalid
  deriving DecidableEq, Repr

/-- The five instruction formats (R58). -/
inductive Format where
  | r
  | i
  | s
  | b
  | j
  deriving DecidableEq, Repr

/-- The format of each class, the demultiplexer's select (R83). -/
def OpClass.format : OpClass → Option Format
  | .rType => some .r
  | .iType => some .i
  | .load => some .i
  | .store => some .s
  | .branch => some .b
  | .jal => some .j
  | .jalr => some .i
  | .invalid => none

/-- The twelve instructions (R2, R87). Immediates are the raw fields of R69 to R72: 12 bits for I and S, 13 bits for B and
21 bits for J, the last two with bit 0 zero (`Instr.wf`). The bits the dispatch ignores are kept, so that every
instruction word is exactly one term: funct7 of SLT, the whole I immediate of SLLI, funct3 of JALR (R88; decision D4, log
entry 4). -/
inductive Instr where
  /-- ADD, R133. -/
  | add (rd rs1 rs2 : RegIdx)
  /-- SUB, R134. -/
  | sub (rd rs1 rs2 : RegIdx)
  /-- SLT, R135; funct7 is ignored. -/
  | slt (rd rs1 rs2 : RegIdx) (funct7 : BitVec 7)
  /-- ADDI, R138. -/
  | addi (rd rs1 : RegIdx) (imm : BitVec 12)
  /-- SLLI, R139; the upper seven bits of the immediate are ignored. -/
  | slli (rd rs1 : RegIdx) (imm : BitVec 12)
  /-- LW, R142. -/
  | lw (rd rs1 : RegIdx) (imm : BitVec 12)
  /-- SW, R143: rs2 holds the value, rs1 the base. -/
  | sw (rs2 rs1 : RegIdx) (imm : BitVec 12)
  /-- BEQ, R148. -/
  | beq (rs1 rs2 : RegIdx) (imm : BitVec 13)
  /-- BNE, R149. -/
  | bne (rs1 rs2 : RegIdx) (imm : BitVec 13)
  /-- BLT, R150. -/
  | blt (rs1 rs2 : RegIdx) (imm : BitVec 13)
  /-- JAL, R153. -/
  | jal (rd : RegIdx) (imm : BitVec 21)
  /-- JALR, R154; funct3 is ignored. -/
  | jalr (rd rs1 : RegIdx) (imm : BitVec 12) (funct3 : BitVec 3)
  deriving DecidableEq, Repr

/-- The opcode class of each instruction (R87). -/
def Instr.opClass : Instr → OpClass
  | .add _ _ _ => .rType
  | .sub _ _ _ => .rType
  | .slt _ _ _ _ => .rType
  | .addi _ _ _ => .iType
  | .slli _ _ _ => .iType
  | .lw _ _ _ => .load
  | .sw _ _ _ => .store
  | .beq _ _ _ => .branch
  | .bne _ _ _ => .branch
  | .blt _ _ _ => .branch
  | .jal _ _ => .jal
  | .jalr _ _ _ _ => .jalr

end Sys2Proof
end

