-- ==== Sys2Proof/WellFormed.lean ====
section
/-! DEFINITION. Which terms of `Instr` an instruction word can stand for: the B and J immediates are even, since their bit 0
is stored nowhere (30_encoding.md R71, R72, R78, R79). Every other field is exactly as wide as its bits in the word. -/

namespace Sys2Proof

/-- The immediate's bit 0 is zero: "value is always even" (R71, R72). -/
def evenImm {n : Nat} (imm : BitVec n) : Bool := !imm.getLsbD 0

/-- The well-formed instructions: those that have an encoding. -/
def Instr.wf : Instr → Bool
  | .add _ _ _ => true
  | .sub _ _ _ => true
  | .slt _ _ _ _ => true
  | .addi _ _ _ => true
  | .slli _ _ _ => true
  | .lw _ _ _ => true
  | .sw _ _ _ => true
  | .beq _ _ imm => evenImm imm
  | .bne _ _ imm => evenImm imm
  | .blt _ _ imm => evenImm imm
  | .jal _ imm => evenImm imm
  | .jalr _ _ _ _ => true

/-- The instructions whose ignored bits are those the assembler emits: zero (R88, R109). -/
def Instr.canonical : Instr → Bool
  | .add _ _ _ => true
  | .sub _ _ _ => true
  | .slt _ _ _ funct7 => funct7 == 0
  | .addi _ _ _ => true
  | .slli _ _ imm => imm.extractLsb' 5 7 == 0
  | .lw _ _ _ => true
  | .sw _ _ _ => true
  | .beq _ _ _ => true
  | .bne _ _ _ => true
  | .blt _ _ _ => true
  | .jal _ _ => true
  | .jalr _ _ _ funct3 => funct3 == 0

end Sys2Proof
end

