-- ==== Sys2Proof/Decode.lean ====
section
/-! DEFINITION. The codec (30_encoding.md): byte order of a word, field accessors, immediates, mutators, whole-format
encoders, the opcode class, the opcode map, and the two directions between words and instructions. Everything here is a
pure, total function of its arguments (R59, R74, R94). -/

namespace Sys2Proof

/-- The default constants: the standard RV32I values, except that the funct3 of BLT is the funct3 of SLT (R84, R85, R86).
PRESUMED by the spec from general knowledge (decisions D1, D2; log entries 1 and 2). -/
def opcodes : OpcodeTable where
  opLoad := 0b0000011
  opIType := 0b0010011
  opStore := 0b0100011
  opRType := 0b0110011
  opBranch := 0b1100011
  opJalr := 0b1100111
  opJal := 0b1101111
  f3AddSub := 0b000
  f3Slt := 0b010
  f3Addi := 0b000
  f3Slli := 0b001
  f3Lw := 0b010
  f3Sw := 0b010
  f3Beq := 0b000
  f3Bne := 0b001
  f3Blt := 0b010
  f7Add := 0b0000000
  f7Sub := 0b0100000

namespace Codec

/-! ### Bytes of a word (20_memory.md R40 to R42) -/

/-- The word whose bytes are b0 (lowest address) to b3: little-endian (R40, R42). -/
def wordOfBytes (b0 b1 b2 b3 : Byte) : Word := b3 ++ b2 ++ b1 ++ b0

/-- Byte `k` of a word, `k` = 0 at the lowest address (R41, R42). -/
def byteOf (w : Word) (k : Nat) : Byte := w.extractLsb' (8 * k) 8

/-! ### Field accessors (R60 to R65; positions DEDUCED by the spec, decision D3, log entry 3) -/

/-- The low 7 bits (R60). -/
def opfield (w : Word) : BitVec 7 := w.extractLsb' 0 7

/-- w[11:7] (R61). -/
def rd (w : Word) : RegIdx := w.extractLsb' 7 5

/-- w[14:12] (R62). -/
def funct3 (w : Word) : BitVec 3 := w.extractLsb' 12 3

/-- w[19:15] (R63). -/
def rs1 (w : Word) : RegIdx := w.extractLsb' 15 5

/-- w[24:20] (R64). -/
def rs2 (w : Word) : RegIdx := w.extractLsb' 20 5

/-- w[31:25] (R65). -/
def funct7 (w : Word) : BitVec 7 := w.extractLsb' 25 7

/-! ### Immediates: the unscrambler (R68 to R73) -/

/-- The 12-bit I field, w[31:20] (R69). -/
def rawI (w : Word) : BitVec 12 := w.extractLsb' 20 12

/-- The 12-bit S field, w[31:25] then w[11:7] (R70). -/
def rawS (w : Word) : BitVec 12 := w.extractLsb' 25 7 ++ w.extractLsb' 7 5

/-- The 13-bit B field: w[31], w[7], w[30:25], w[11:8], 0 (R71). -/
def rawB (w : Word) : BitVec 13 :=
  w.extractLsb' 31 1 ++ w.extractLsb' 7 1 ++ w.extractLsb' 25 6 ++ w.extractLsb' 8 4 ++ 0#1

/-- The 21-bit J field: w[31], w[19:12], w[20], w[30:21], 0 (R72). -/
def rawJ (w : Word) : BitVec 21 :=
  w.extractLsb' 31 1 ++ w.extractLsb' 12 8 ++ w.extractLsb' 20 1 ++ w.extractLsb' 21 10 ++ 0#1

/-- Two's-complement sign extension to 32 bits (R68). -/
def sext32 {n : Nat} (v : BitVec n) : Word := v.signExtend 32

/-- immI (R69). -/
def immI (w : Word) : Word := sext32 (rawI w)

/-- immS (R70). -/
def immS (w : Word) : Word := sext32 (rawS w)

/-- immB (R71). -/
def immB (w : Word) : Word := sext32 (rawB w)

/-- immJ (R72). -/
def immJ (w : Word) : Word := sext32 (rawJ w)

/-! ### Mutators: the multiplexer and the scrambler (R74 to R79). The value port is as wide as the field; what a wider
software value loses is cut off before the port (R74; decision D14, log entry 13). -/

/-- [6:0] = v (R75). -/
def setOpcode (w : Word) (v : BitVec 7) : Word := w.extractLsb' 7 25 ++ v

/-- [11:7] = v (R75). -/
def setRd (w : Word) (v : RegIdx) : Word := w.extractLsb' 12 20 ++ v ++ w.extractLsb' 0 7

/-- [14:12] = v (R75). -/
def setFunct3 (w : Word) (v : BitVec 3) : Word := w.extractLsb' 15 17 ++ v ++ w.extractLsb' 0 12

/-- [19:15] = v (R75). -/
def setRs1 (w : Word) (v : RegIdx) : Word := w.extractLsb' 20 12 ++ v ++ w.extractLsb' 0 15

/-- [24:20] = v (R75). -/
def setRs2 (w : Word) (v : RegIdx) : Word := w.extractLsb' 25 7 ++ v ++ w.extractLsb' 0 20

/-- [31:25] = v (R75). -/
def setFunct7 (w : Word) (v : BitVec 7) : Word := v ++ w.extractLsb' 0 25

/-- [31:20] = imm (R76). -/
def setImmI (w : Word) (imm : BitVec 12) : Word := imm ++ w.extractLsb' 0 20

/-- [11:7] = imm[4:0], [31:25] = imm[11:5] (R77). -/
def setImmS (w : Word) (imm : BitVec 12) : Word :=
  imm.extractLsb' 5 7 ++ w.extractLsb' 12 13 ++ imm.extractLsb' 0 5 ++ w.extractLsb' 0 7

/-- [31] = imm[12], [30:25] = imm[10:5], [11:8] = imm[4:1], [7] = imm[11]; bit 0 of imm is dropped (R78). -/
def setImmB (w : Word) (imm : BitVec 13) : Word :=
  imm.extractLsb' 12 1 ++ imm.extractLsb' 5 6 ++ w.extractLsb' 12 13 ++ imm.extractLsb' 1 4
    ++ imm.extractLsb' 11 1 ++ w.extractLsb' 0 7

/-- [31] = imm[20], [30:21] = imm[10:1], [20] = imm[11], [19:12] = imm[19:12]; bit 0 of imm is dropped (R79). -/
def setImmJ (w : Word) (imm : BitVec 21) : Word :=
  imm.extractLsb' 20 1 ++ imm.extractLsb' 1 10 ++ imm.extractLsb' 11 1 ++ imm.extractLsb' 12 8 ++ w.extractLsb' 0 12

/-! ### Whole-format encoders (R81) -/

/-- The R format. -/
def encR (op : BitVec 7) (rd : RegIdx) (f3 : BitVec 3) (rs1 rs2 : RegIdx) (f7 : BitVec 7) : Word :=
  f7 ++ rs2 ++ rs1 ++ f3 ++ rd ++ op

/-- The I format. -/
def encI (op : BitVec 7) (rd : RegIdx) (f3 : BitVec 3) (rs1 : RegIdx) (imm : BitVec 12) : Word :=
  imm ++ rs1 ++ f3 ++ rd ++ op

/-- The S format. -/
def encS (op : BitVec 7) (f3 : BitVec 3) (rs1 rs2 : RegIdx) (imm : BitVec 12) : Word :=
  imm.extractLsb' 5 7 ++ rs2 ++ rs1 ++ f3 ++ imm.extractLsb' 0 5 ++ op

/-- The B format. -/
def encB (op : BitVec 7) (f3 : BitVec 3) (rs1 rs2 : RegIdx) (imm : BitVec 13) : Word :=
  imm.extractLsb' 12 1 ++ imm.extractLsb' 5 6 ++ rs2 ++ rs1 ++ f3 ++ imm.extractLsb' 1 4 ++ imm.extractLsb' 11 1 ++ op

/-- The J format. -/
def encJ (op : BitVec 7) (rd : RegIdx) (imm : BitVec 21) : Word :=
  imm.extractLsb' 20 1 ++ imm.extractLsb' 1 10 ++ imm.extractLsb' 11 1 ++ imm.extractLsb' 12 8 ++ rd ++ op

/-! ### The opcode class and the codec's outputs (R82, R94) -/

/-- The class whose constant equals the low 7 bits, INVALID when none does (R82). -/
def opclassWith (t : OpcodeTable) (w : Word) : OpClass :=
  if opfield w = t.opRType then .rType
  else if opfield w = t.opIType then .iType
  else if opfield w = t.opLoad then .load
  else if opfield w = t.opStore then .store
  else if opfield w = t.opBranch then .branch
  else if opfield w = t.opJal then .jal
  else if opfield w = t.opJalr then .jalr
  else .invalid

/-- The class under the default constants. -/
def opclass (w : Word) : OpClass := opclassWith opcodes w

/-- The decode direction of the codec as a block: all its outputs, valid at once for every word (R59, R94). -/
structure Fields where
  cls : OpClass
  rd : RegIdx
  funct3 : BitVec 3
  rs1 : RegIdx
  rs2 : RegIdx
  funct7 : BitVec 7
  immI : Word
  immS : Word
  immB : Word
  immJ : Word
  deriving DecidableEq, Repr

/-- The demultiplexer (R94), under the constants `t`. -/
def demux (t : OpcodeTable) (w : Word) : Fields where
  cls := opclassWith t w
  rd := rd w
  funct3 := funct3 w
  rs1 := rs1 w
  rs2 := rs2 w
  funct7 := funct7 w
  immI := immI w
  immS := immS w
  immB := immB w
  immJ := immJ w

end Codec

open Codec

/-! ### The opcode map: words to instructions (R87 to R93) -/

/-- What a word is: one of the twelve instructions, or one of the two rejections (R92). -/
inductive Decoded where
  | ok (i : Instr)
  /-- The class is INVALID (R89). -/
  | invalidOpcode
  /-- A valid class and an unlisted funct3 or funct7 (R90). -/
  | unimplemented
  deriving DecidableEq, Repr

/-- Dispatch by opcode class, then funct3, then funct7, in the order of R87 and R93. -/
def decodeWith (t : OpcodeTable) (w : Word) : Decoded :=
  match opclassWith t w with
  | .invalid => .invalidOpcode
  | .rType =>
    if funct3 w = t.f3AddSub ∧ funct7 w = t.f7Add then .ok (.add (rd w) (rs1 w) (rs2 w))
    else if funct3 w = t.f3AddSub ∧ funct7 w = t.f7Sub then .ok (.sub (rd w) (rs1 w) (rs2 w))
    else if funct3 w = t.f3Slt then .ok (.slt (rd w) (rs1 w) (rs2 w) (funct7 w))
    else .unimplemented
  | .iType =>
    if funct3 w = t.f3Addi then .ok (.addi (rd w) (rs1 w) (rawI w))
    else if funct3 w = t.f3Slli then .ok (.slli (rd w) (rs1 w) (rawI w))
    else .unimplemented
  | .load => if funct3 w = t.f3Lw then .ok (.lw (rd w) (rs1 w) (rawI w)) else .unimplemented
  | .store => if funct3 w = t.f3Sw then .ok (.sw (rs2 w) (rs1 w) (rawS w)) else .unimplemented
  | .branch =>
    if funct3 w = t.f3Beq then .ok (.beq (rs1 w) (rs2 w) (rawB w))
    else if funct3 w = t.f3Bne then .ok (.bne (rs1 w) (rs2 w) (rawB w))
    else if funct3 w = t.f3Blt then .ok (.blt (rs1 w) (rs2 w) (rawB w))
    else .unimplemented
  | .jal => .ok (.jal (rd w) (rawJ w))
  | .jalr => .ok (.jalr (rd w) (rs1 w) (rawI w) (funct3 w))

/-- The decoder under the default constants. -/
def decode (w : Word) : Decoded := decodeWith opcodes w

/-- The first instruction of a byte string, lowest address first, with the rest of the string; none if fewer than four
bytes stand there (R57, R42). -/
def decodeBytesWith (t : OpcodeTable) : List Byte → Option (Decoded × List Byte)
  | b0 :: b1 :: b2 :: b3 :: rest => some (decodeWith t (wordOfBytes b0 b1 b2 b3), rest)
  | _ => none

/-- The same under the default constants. -/
def decodeBytes (bytes : List Byte) : Option (Decoded × List Byte) := decodeBytesWith opcodes bytes

/-! ### Instructions to words (R81, R107) -/

/-- The word of an instruction, by the whole-format encoders (R81, R107). -/
def encodeWith (t : OpcodeTable) : Instr → Word
  | .add rd rs1 rs2 => encR t.opRType rd t.f3AddSub rs1 rs2 t.f7Add
  | .sub rd rs1 rs2 => encR t.opRType rd t.f3AddSub rs1 rs2 t.f7Sub
  | .slt rd rs1 rs2 funct7 => encR t.opRType rd t.f3Slt rs1 rs2 funct7
  | .addi rd rs1 imm => encI t.opIType rd t.f3Addi rs1 imm
  | .slli rd rs1 imm => encI t.opIType rd t.f3Slli rs1 imm
  | .lw rd rs1 imm => encI t.opLoad rd t.f3Lw rs1 imm
  | .sw rs2 rs1 imm => encS t.opStore t.f3Sw rs1 rs2 imm
  | .beq rs1 rs2 imm => encB t.opBranch t.f3Beq rs1 rs2 imm
  | .bne rs1 rs2 imm => encB t.opBranch t.f3Bne rs1 rs2 imm
  | .blt rs1 rs2 imm => encB t.opBranch t.f3Blt rs1 rs2 imm
  | .jal rd imm => encJ t.opJal rd imm
  | .jalr rd rs1 imm funct3 => encI t.opJalr rd funct3 rs1 imm

/-- The encoder under the default constants. -/
def encode (i : Instr) : Word := encodeWith opcodes i

/-- The four bytes of a word as memory holds them, lowest address first (R42). -/
def wordBytes (w : Word) : List Byte := [byteOf w 0, byteOf w 1, byteOf w 2, byteOf w 3]

/-- The instruction word that the opcode table's numbering gives: bits from `nbits` up are zero. -/
def tableWord (nbits w : Nat) : Word := BitVec.ofNat 32 (w % 2 ^ min nbits 32)

/-- The instruction the decoder reads from the bytes of a table word, none where it rejects it. -/
def decodeTableWord (nbits w : Nat) : Option Instr :=
  match decodeBytes (wordBytes (tableWord nbits w)) with
  | some (.ok i, _) => some i
  | some (.invalidOpcode, _) => none
  | some (.unimplemented, _) => none
  | none => none

end Sys2Proof
end

