-- ==== Sys2Proof/Machine/Params.lean ====
section
/-! DEFINITION. The values of RESET_PC and MEM_SIZE for the one machine `State.reset`. Both are parameters (00_scope.md R7):
`State.construct` takes them as arguments, a machine's memory holds its MEM_SIZE, and the host port's requests take
RESET_PC. -/

namespace Sys2Proof

/-- The default of RESET_PC, 0 (70_reset_and_hazards.md R184; decision D10, log entry 10). -/
def Config.resetPc : Word := 0

/-- The MEM_SIZE of the machine `State.reset` (00_scope.md R7; decision D9). DESIGN CHOICE, log entry 9: 1024, the size the
spec's test vectors assume unless they say otherwise. -/
def Config.memSize : Nat := 1024

end Sys2Proof
end

