-- ==== Sys2Proof/Machine/State.lean ====
section
/-! DEFINITION. The machine's state as plain data (10_state.md R13), its reset (R34), and the reasons a step or a request
ends without a next state. -/

namespace Sys2Proof.Machine

/-- "a fixed-length byte buffer" of MEM_SIZE bytes at byte addresses 0 to MEM_SIZE - 1 (20_memory.md R37). `size` is
MEM_SIZE, a parameter of the machine that no step and no request changes (log entry 9). `cells` lists the bytes that are
not zero, addresses strictly rising; an unlisted address holds 0x00, the reset contents (R34, R185; log entry 24). -/
structure Memory where
  size : Nat
  cells : List Host.Cell
  deriving DecidableEq, Repr

/-- What an unlisted address reads as: the reset contents of every byte (R34, R185). -/
def Memory.unlisted : Byte := 0

/-- Every listed address is above `low`, and addresses strictly rise. -/
def cellsRiseAbove : Nat → List Host.Cell → Bool
  | _, [] => true
  | low, (k, _) :: rest => decide (low ≤ k) && cellsRiseAbove (k + 1) rest

/-- The one canonical form: addresses strictly rising, no entry equal to what an unlisted address reads as, no entry
outside the buffer, and MEM_SIZE at most 2^32 (R7, R37). -/
def Memory.wf (m : Memory) : Bool :=
  cellsRiseAbove 0 m.cells && m.cells.all (fun c => c.2 != Memory.unlisted && decide (c.1 < m.size))
    && decide (m.size ≤ Config.maxMemSize)

/-- A buffer of `size` bytes, all zero (R185). -/
def Memory.zeroed (size : Nat) : Memory := ⟨size, []⟩

/-- The whole state (R13): registers x1 to x31 (x<i> at index i - 1; register 0 is a constant and has no slot, R14, R15),
the program counter (R19), the memory (R37). There are no flags, no control registers, no hidden state (R23 to R26). -/
structure State where
  regs : Vector Word 31
  pc : Word
  mem : Memory
  deriving DecidableEq, Repr

/-- Construction of a machine with MEM_SIZE = `size` and RESET_PC = `resetPc`, the two parameters a model takes as arguments
(00_scope.md R7): every register 0, the pc at RESET_PC, every byte 0 (R34, R182 to R185). -/
def State.construct (size : Nat) (resetPc : Word) : State where
  regs := Vector.replicate 31 0
  pc := resetPc
  mem := Memory.zeroed size

/-- The machine right after reset (R34), with the memory size of log entry 9 and the spec's default RESET_PC (log entry
10). -/
def State.reset : State := State.construct Config.memSize Config.resetPc

/-- The five step errors (60_exceptions.md R159). Each ends the step with no change of any state (40_step_cycle.md R125);
all are the spec's own results, so stopping with them is faithful, and safe. -/
inductive Fault where
  /-- Raised by every step's fetch when u(pc) + 4 > MEM_SIZE (R160). Safe: the spec's own result. -/
  | fetchOutOfBounds
  /-- Raised by every step whose word has the class INVALID (R161). Safe: the spec's own result. -/
  | invalidOpcode
  /-- Raised by every step whose word has a valid class and an unlisted funct3 or funct7 (R162). Safe: the spec's own
  result. -/
  | unimplementedInstruction
  /-- Raised by LW when u(ea) + 4 > MEM_SIZE (R163). Safe: the spec's own result. -/
  | loadOutOfBounds
  /-- Raised by SW when u(ea) + 4 > MEM_SIZE (R164). Safe: the spec's own result. -/
  | storeOutOfBounds
  deriving DecidableEq, Repr

/-- What the model gives no meaning. -/
inductive Refusal where
  /-- Raised by an arm of `exec` whose instruction has no meaning yet; no arm is left so. Safe. -/
  | notModelled (mnemonic : String)
  /-- Raised by the host request LOAD_PROGRAM, never by a step, when the words do not fit in the memory (10_state.md R32;
  decision D21, log entry 20). Safe: the spec gives that request no meaning. -/
  | loadProgramDoesNotFit
  deriving DecidableEq, Repr

end Sys2Proof.Machine
end

