-- ==== Sys2Proof/Machine/Ops.lean ====
section
/-! DEFINITION. The named operations over registers, the program counter and memory that every meaning is written with, the
fetch, and the one way a step ends in an error. There is no exception entry and no return from one: a failed step saves
nothing, changes no mode and transfers control nowhere (60_exceptions.md R170, R171). -/

namespace Sys2Proof.Machine

/-! ### Registers (10_state.md R14, R15) -/

/-- `x[i]`: 0 for index 0, else the stored value (R14). -/
def State.readReg (s : State) (i : RegIdx) : Word :=
  if i = 0 then 0 else s.regs[i.toNat - 1]'(by have := i.isLt; omega)

/-- `x[i] <- v`: replaces slot i; discarded for index 0 (R15). -/
def State.writeReg (s : State) (i : RegIdx) (v : Word) : State :=
  if i = 0 then s else { s with regs := s.regs.set (i.toNat - 1) v (by have := i.isLt; omega) }

/-! ### The program counter (10_state.md R20, R22) -/

/-- `pc <- t`. -/
def State.setPc (s : State) (t : Word) : State := { s with pc := t }

/-- `pc <- pc + 4`, modulo 2^32 (R20, R22; decision D5, log entry 5). -/
def State.advance (s : State) : State := s.setPc (s.pc + instrSize)

/-- Writeback and pc update of the instructions that do not set the pc themselves (40_step_cycle.md R123, R124). -/
def State.writeBack (s : State) (rd : RegIdx) (v : Word) : State := (s.writeReg rd v).advance

/-- A jump: the link value pc + 4 goes to `rd`, then the pc becomes `target`; both are computed from the state at the start
of the step (45_jump.md R152; R120; decision D6, log entry 6). -/
def State.linkAndJump (s : State) (rd : RegIdx) (target : Word) : State :=
  (s.writeReg rd (s.pc + instrSize)).setPc target

/-! ### Memory (20_memory.md R37 to R46) -/

/-- The byte a list of cells gives an address: the first entry for it, else what an unlisted address reads as. -/
def cellsRead : List Host.Cell → Nat → Byte
  | [], _ => Memory.unlisted
  | (k, v) :: rest, a => if k = a then v else cellsRead rest a

/-- Insert an entry before the first one with a larger address. -/
def cellsInsert (a : Nat) (b : Byte) : List Host.Cell → List Host.Cell
  | [] => [(a, b)]
  | (k, v) :: rest => if a < k then (a, b) :: (k, v) :: rest else (k, v) :: cellsInsert a b rest

/-- Make `a` hold `b` and nothing else change, in canonical form: the old entry goes, and a new one stands only if `b`
differs from what an unlisted address reads as. -/
def cellsWrite (cells : List Host.Cell) (a : Nat) (b : Byte) : List Host.Cell :=
  if b = Memory.unlisted then cells.filter (fun c => c.1 != a) else cellsInsert a b (cells.filter (fun c => c.1 != a))

/-- The byte at one address. -/
def Memory.readByte (m : Memory) (a : Nat) : Byte := cellsRead m.cells a

/-- `mem[a] <- b`. -/
def Memory.writeByte (m : Memory) (a : Nat) (b : Byte) : Memory := { m with cells := cellsWrite m.cells a b }

/-- The bounds condition of both port operations, in unbounded integers (R39; decision D8, log entry 8). There is no
alignment condition (R43, R44; decision D7, log entry 7). -/
abbrev Memory.admits (m : Memory) (addr : Word) : Prop := addr.toNat + 4 ≤ m.size

/-- `MemRead(addr, 4)`: the little-endian word at `addr`, none out of bounds (R40, R42). -/
def Memory.readWord (m : Memory) (addr : Word) : Option Word :=
  if m.admits addr then
    some (Codec.wordOfBytes (m.readByte addr.toNat) (m.readByte (addr.toNat + 1)) (m.readByte (addr.toNat + 2))
      (m.readByte (addr.toNat + 3)))
  else none

/-- `MemWrite(addr, 4, v)`: all four bytes or, out of bounds, none (R41, R42, R46). -/
def Memory.writeWord (m : Memory) (addr : Word) (v : Word) : Option Memory :=
  if m.admits addr then
    some ((((m.writeByte addr.toNat (Codec.byteOf v 0)).writeByte (addr.toNat + 1) (Codec.byteOf v 1)).writeByte
      (addr.toNat + 2) (Codec.byteOf v 2)).writeByte (addr.toNat + 3) (Codec.byteOf v 3))
  else none

/-! ### Fetch and step errors (40_step_cycle.md R118, R125) -/

/-- The fetch of a step: `MemRead(pc, 4)`, made afresh at whatever value the pc has (R118, R44, R53). -/
def State.fetch (s : State) : Option Word := s.mem.readWord s.pc

/-- `raise`: the step ends now with this error and no change of state (R125, R127). -/
def raise (f : Fault) : Host.Outcome State Fault Refusal := .fault f

/-! ### Step errors as the host sees them (60_exceptions.md R159; decision D11, log entry 11) -/

/-- The numeric code of each error; 0 is ok (R159). -/
def Fault.code (f : Fault) : Nat :=
  match f with
  | .fetchOutOfBounds => 1
  | .invalidOpcode => 2
  | .unimplementedInstruction => 3
  | .loadOutOfBounds => 4
  | .storeOutOfBounds => 5

/-- Whether the document files the error with the decode errors; the other class is memory errors (R159, R167; 90_conflicts.md
C3). -/
def Fault.isDecodeError (f : Fault) : Bool :=
  match f with
  | .fetchOutOfBounds => false
  | .invalidOpcode => true
  | .unimplementedInstruction => true
  | .loadOutOfBounds => false
  | .storeOutOfBounds => false

end Sys2Proof.Machine
end

