-- ==== Sys2Proof/Machine/Operands.lean ====
section
/-! DEFINITION. The operand forms: register operands are `State.readReg`; the immediate operands are the raw fields of an
instruction, extended here; then the effective address, the branch target and the jump targets. All sums are modulo 2^32
(10_state.md R22; decision D5, log entry 5). -/

namespace Sys2Proof.Machine

/-- The value of an immediate operand: its field sign-extended to 32 bits (30_encoding.md R68 to R72). -/
def immValue {n : Nat} (imm : BitVec n) : Word := Codec.sext32 imm

/-- SLLI's shift amount: immI & 0x1F (R73). -/
def shiftAmount (imm : BitVec 12) : Nat := (immValue imm &&& 0x1F).toNat

/-- The effective address of LW and SW: base register plus sign-extended immediate (43_load_store.md R141). -/
def State.effectiveAddress (s : State) (rs1 : RegIdx) (imm : BitVec 12) : Word := s.readReg rs1 + immValue imm

/-- The target of a taken branch or of JAL: the offset is added to the address of the instruction itself (44_branch.md R147,
45_jump.md R153). It is not checked for alignment or bounds (R147, R157). -/
def State.relativeTarget {n : Nat} (s : State) (imm : BitVec n) : Word := s.pc + immValue imm

/-- JALR's target: register plus immediate with bit 0 cleared (45_jump.md R154). -/
def State.indirectTarget (s : State) (rs1 : RegIdx) (imm : BitVec 12) : Word :=
  (s.readReg rs1 + immValue imm) &&& 0xFFFFFFFE

/-- The pc update of a branch (44_branch.md R147). -/
def State.branchIf (s : State) (taken : Bool) (imm : BitVec 13) : State :=
  if taken then s.setPc (s.relativeTarget imm) else s.advance

end Sys2Proof.Machine
end

