-- ==== Sys2Proof/Machine/Branch.lean ====
section
/-! DEFINITION. BEQ, BNE, BLT (44_branch.md). -/

namespace Sys2Proof.Machine

/-- BEQ (R148): branch if a = b. -/
def execBeq (rs1 rs2 : RegIdx) (imm : BitVec 13) (s : State) : Host.Outcome State Fault Refusal :=
  .next (s.branchIf (isEqual (s.readReg rs1) (s.readReg rs2)) imm)

/-- BNE (R149): branch if a differs from b. -/
def execBne (rs1 rs2 : RegIdx) (imm : BitVec 13) (s : State) : Host.Outcome State Fault Refusal :=
  .next (s.branchIf (!isEqual (s.readReg rs1) (s.readReg rs2)) imm)

/-- BLT (R150): branch if s(a) < s(b). -/
def execBlt (rs1 rs2 : RegIdx) (imm : BitVec 13) (s : State) : Host.Outcome State Fault Refusal :=
  .next (s.branchIf (isLessSigned (s.readReg rs1) (s.readReg rs2)) imm)

end Sys2Proof.Machine
end

