-- ==== Sys2Proof/Machine/IntegerImmediate.lean ====
section
/-! DEFINITION. ADDI, SLLI (42_integer_immediate.md). -/

namespace Sys2Proof.Machine

/-- ADDI (R138): x[rd] <- a + immI; pc <- pc + 4. -/
def execAddi (rd rs1 : RegIdx) (imm : BitVec 12) (s : State) : Host.Outcome State Fault Refusal :=
  .next (s.writeBack rd (s.readReg rs1 + immValue imm))

/-- SLLI (R139): x[rd] <- a << (immI & 0x1F); pc <- pc + 4. The upper immediate bits are ignored (R73, R88). -/
def execSlli (rd rs1 : RegIdx) (imm : BitVec 12) (s : State) : Host.Outcome State Fault Refusal :=
  .next (s.writeBack rd (s.readReg rs1 <<< shiftAmount imm))

end Sys2Proof.Machine
end

