-- ==== Sys2Proof/Machine/IntegerRegister.lean ====
section
/-! DEFINITION. ADD, SUB, SLT (41_integer_register.md). -/

namespace Sys2Proof.Machine

/-- ADD (R133): x[rd] <- a + b; pc <- pc + 4. -/
def execAdd (rd rs1 rs2 : RegIdx) (s : State) : Host.Outcome State Fault Refusal :=
  .next (s.writeBack rd (s.readReg rs1 + s.readReg rs2))

/-- SUB (R134): x[rd] <- a - b; pc <- pc + 4. -/
def execSub (rd rs1 rs2 : RegIdx) (s : State) : Host.Outcome State Fault Refusal :=
  .next (s.writeBack rd (s.readReg rs1 - s.readReg rs2))

/-- SLT (R135): x[rd] <- 1 if s(a) < s(b) else 0; pc <- pc + 4. funct7 is ignored (R88; decision D4, log entry 4). -/
def execSlt (rd rs1 rs2 : RegIdx) (s : State) : Host.Outcome State Fault Refusal :=
  .next (s.writeBack rd (boolWord (isLessSigned (s.readReg rs1) (s.readReg rs2))))

end Sys2Proof.Machine
end

