-- ==== Sys2Proof/Machine/Jump.lean ====
section
/-! DEFINITION. JAL, JALR (45_jump.md). -/

namespace Sys2Proof.Machine

/-- JAL (R153): x[rd] <- pc + 4; pc <- pc + immJ. -/
def execJal (rd : RegIdx) (imm : BitVec 21) (s : State) : Host.Outcome State Fault Refusal :=
  .next (s.linkAndJump rd (s.relativeTarget imm))

/-- JALR (R154): x[rd] <- pc + 4; pc <- (a + immI) with bit 0 cleared, a read before the link is written (R155; decision
D6, log entry 6). funct3 is ignored (R88). -/
def execJalr (rd rs1 : RegIdx) (imm : BitVec 12) (s : State) : Host.Outcome State Fault Refusal :=
  .next (s.linkAndJump rd (s.indirectTarget rs1 imm))

end Sys2Proof.Machine
end

