-- ==== Sys2Proof/Machine/LoadStore.lean ====
section
/-! DEFINITION. LW, SW (43_load_store.md). -/

namespace Sys2Proof.Machine

/-- LW (R142): the word at the effective address goes to rd, or LoadOutOfBounds with no register write. The access is made
for rd = 0 too (R145). -/
def execLw (rd rs1 : RegIdx) (imm : BitVec 12) (s : State) : Host.Outcome State Fault Refusal :=
  match s.mem.readWord (s.effectiveAddress rs1 imm) with
  | some v => .next (s.writeBack rd v)
  | none => raise .loadOutOfBounds

/-- SW (R143): x[rs2] goes to the four bytes at the effective address, or StoreOutOfBounds with no byte written. -/
def execSw (rs2 rs1 : RegIdx) (imm : BitVec 12) (s : State) : Host.Outcome State Fault Refusal :=
  match s.mem.writeWord (s.effectiveAddress rs1 imm) (s.readReg rs2) with
  | some m => .next ({ s with mem := m } : State).advance
  | none => raise .storeOutOfBounds

end Sys2Proof.Machine
end

