-- ==== Sys2Proof/Machine/Step.lean ====
section
/-! DEFINITION. The one transition of the core (40_step_cycle.md R117, R127): fetch, decode, dispatch with writeback and pc
update, all or nothing. -/

namespace Sys2Proof.Machine

/-- `STEP` of the machine whose opcode constants are `c` (00_scope.md R8): the checks are made in the order of R128: fetch
bounds, opcode class, funct3 and funct7, then the data address inside LW and SW. -/
def stepWith (c : OpcodeTable) (s : State) : Host.Outcome State Fault Refusal :=
  match s.fetch with
  | none => raise .fetchOutOfBounds
  | some w =>
    match decodeWith c w with
    | .invalidOpcode => raise .invalidOpcode
    | .unimplemented => raise .unimplementedInstruction
    | .ok i => exec i s

/-- `STEP` under the default constants (log entries 1 and 2). -/
def step (s : State) : Host.Outcome State Fault Refusal := stepWith opcodes s

/-- The machine for any values of the spec's parameters: the opcode constants, MEM_SIZE and RESET_PC (00_scope.md R7, R8).
The host's `core` is the one with the default constants, `Config.memSize` and `Config.resetPc`. -/
def machineWith (c : OpcodeTable) (size : Nat) (resetPc : Word) : Host.Core where
  State := State
  Fault := Fault
  Refusal := Refusal
  step := stepWith c
  reset := State.construct size resetPc

/-- `s` with an instruction word stored at the pc, little-endian, where the next step fetches it (R42, R118). Where the
memory does not admit a word at the pc no step can fetch, and `s` stays as it is (log entry 23). -/
def State.withFetchWord (s : State) (nbits w : Nat) : State :=
  match s.mem.writeWord s.pc (tableWord nbits w) with
  | some m => { s with mem := m }
  | none => s

end Sys2Proof.Machine
end

