-- ==== Sys2Proof/Machine/Assembler.lean ====
section
/-! DEFINITION. The two-pass assembler (30_encoding.md R97 to R116): software around the block, no state of the machine. It
takes the lines of one assembly unit to instruction words, or to one of the four errors of R110 with the source line, or to
a refusal where the outcome hangs on a lexical detail the spec says must not be assumed (R114; decision D22, log entry
21). -/

namespace Sys2Proof.Asm

open Codec

/-- One line of source, or a piece of one. -/
abbrev Text := List Char

/-- The four assembly errors (R110, 60_exceptions.md R181). -/
inductive Error where
  | unknownLabel
  | unsupportedInstruction
  | invalidOperands
  | immediateOutOfRange
  deriving DecidableEq, Repr

/-- Why an input is refused: each is a detail R114 leaves unsaid. -/
inductive Unstated where
  /-- A label text that is not a plain name, an instruction followed by a label among them. -/
  | labelText
  /-- A label defined twice. -/
  | duplicateLabel
  /-- A mnemonic of the table in another letter case. -/
  | mnemonicCase
  /-- A number with a plus sign, with leading zeros, in another base or as a character. -/
  | numeralForm
  /-- A register with a capital X, leading zeros or a number above 31, or by a name other than its `x<N>`. -/
  | registerForm
  /-- A shift amount with a minus sign. -/
  | negativeShift
  /-- `j` with no operand or several. -/
  | pseudoOperands
  deriving DecidableEq, Repr

/-- Why a line gives no word. -/
inductive Stop where
  | error (e : Error)
  | refuse (u : Unstated)
  deriving DecidableEq, Repr

/-- The result of assembling one unit: all its words, or no words and the first failure, an error with the file name and
the source line it carries (R110). -/
inductive Result where
  | words (ws : List Word)
  | error (file : Text) (line : Nat) (e : Error)
  | refused (line : Nat) (u : Unstated)
  deriving DecidableEq, Repr

/-! ### Text -/

/-- The white space of R98 and R106 inside a line. The spec does not say which characters these are: DESIGN CHOICE, space,
tab and carriage return (log entry 21). -/
def isSpace (c : Char) : Bool := c = ' ' || c = '\t' || c = '\r'

/-- Remove white space at both ends (R98). -/
def trim (t : Text) : Text := ((t.dropWhile isSpace).reverse.dropWhile isSpace).reverse

/-- Remove a trailing comment, its comment character too (R97, R98). -/
def stripComment (t : Text) : Text := t.takeWhile (fun c => c != '#' && c != ';')

/-- The pieces of a text between the separators `sep`. -/
def pieces (sep : Char) : Text → List Text
  | [] => [[]]
  | c :: rest =>
    if c = sep then [] :: pieces sep rest
    else
      match pieces sep rest with
      | [] => [[c]]
      | p :: ps => (c :: p) :: ps

/-- A letter of either case or an underscore. -/
def isNameStart (c : Char) : Bool := c.isAlpha || c = '_'

/-- A plain name: a letter or underscore, then letters, digits and underscores (DESIGN CHOICE, log entry 21). -/
def isName : Text → Bool
  | [] => false
  | c :: rest => isNameStart c && rest.all (fun d => isNameStart d || d.isDigit)

/-- Digits to a number. -/
def digitsValue (acc : Nat) : Text → Option Nat
  | [] => some acc
  | c :: rest => if c.isDigit then digitsValue (acc * 10 + (c.toNat - '0'.toNat)) rest else none

/-- A decimal number without leading zeros. -/
def decimal (t : Text) : Option Nat :=
  match t with
  | [] => none
  | c :: rest => if c = '0' then (if rest = [] then some 0 else none) else digitsValue 0 t

/-- A decimal numeral, optionally negative (R102). -/
def numeral (t : Text) : Option Int :=
  match t with
  | [] => none
  | c :: rest => if c = '-' then (decimal rest).map (fun n => -(n : Int)) else (decimal t).map (fun n => (n : Int))

/-- Digits after a base mark: hexadecimal, binary or octal. -/
def isBased : Text → Bool
  | z :: b :: rest =>
    z = '0' && rest != [] &&
      ((b.toLower = 'x' && rest.all (fun c => c.isDigit || ('a'.toNat ≤ c.toLower.toNat && c.toLower.toNat ≤ 'f'.toNat)))
        || (b.toLower = 'b' && rest.all (fun c => c = '0' || c = '1'))
        || (b.toLower = 'o' && rest.all (fun c => '0'.toNat ≤ c.toNat && c.toNat ≤ '7'.toNat)))
  | _ => false

/-- A text that is no numeral of R102 and that an assembler might still read as a number, in one of the forms R102 and R114
say nothing is known of: a plus sign, leading zeros, another base, a character (log entry 21). -/
def isUnstatedNumeral (t : Text) : Bool :=
  let digits := if t.head? = some '+' || t.head? = some '-' then t.tail else t
  (numeral t).isNone && ((digits != [] && digits.all Char.isDigit) || isBased digits
    || (t.length = 3 && t.head? = some (Char.ofNat 39) && t.getLast? = some (Char.ofNat 39)))

/-- `x` and a decimal number 0 to 31 (R101). -/
def registerNamed (t : Text) : Option RegIdx :=
  match t with
  | [] => none
  | c :: rest =>
    if c = 'x' then
      match decimal rest with
      | some n => if n < 32 then some (BitVec.ofNat 5 n) else none
      | none => none
    else none

/-- A text of the shape of a register name, which no label may have here (DESIGN CHOICE, log entry 21). -/
def looksRegister : Text → Bool
  | [] => false
  | c :: rest => (c = 'x' || c = 'X') && rest != [] && rest.all Char.isDigit

/-- The other register names of the RISC-V convention, which the spec does not give (R101; PRESUMED as a list of what to
refuse, log entry 21). -/
def conventionNames : List Text :=
  ["zero".toList, "ra".toList, "sp".toList, "gp".toList, "tp".toList, "fp".toList, "t0".toList, "t1".toList, "t2".toList,
    "t3".toList, "t4".toList, "t5".toList, "t6".toList, "a0".toList, "a1".toList, "a2".toList, "a3".toList, "a4".toList,
    "a5".toList, "a6".toList, "a7".toList, "s0".toList, "s1".toList, "s2".toList, "s3".toList, "s4".toList, "s5".toList,
    "s6".toList, "s7".toList, "s8".toList, "s9".toList, "s10".toList, "s11".toList]

/-- A text that is no register operand of R101 and that an assembler might still read as one, in a form R114 and decision D22
leave unsaid: a capital X, leading zeros, a number above 31, a conventional name (log entry 21). -/
def isUnstatedRegister (t : Text) : Bool :=
  (registerNamed t).isNone && (looksRegister t || conventionNames.contains (t.map Char.toLower))

/-! ### Instructions as the assembler reads them -/

/-- The twelve mnemonics (R96). -/
inductive Mnemonic where
  | add
  | sub
  | slt
  | addi
  | slli
  | lw
  | sw
  | beq
  | bne
  | blt
  | jal
  | jalr
  deriving DecidableEq, Repr

/-- The spelling of each mnemonic (R107). -/
def Mnemonic.text : Mnemonic → Text
  | .add => "add".toList
  | .sub => "sub".toList
  | .slt => "slt".toList
  | .addi => "addi".toList
  | .slli => "slli".toList
  | .lw => "lw".toList
  | .sw => "sw".toList
  | .beq => "beq".toList
  | .bne => "bne".toList
  | .blt => "blt".toList
  | .jal => "jal".toList
  | .jalr => "jalr".toList

/-- All mnemonics. -/
def mnemonics : List Mnemonic := [.add, .sub, .slt, .addi, .slli, .lw, .sw, .beq, .bne, .blt, .jal, .jalr]

/-- The mnemonic a text spells. -/
def mnemonicNamed (t : Text) : Option Mnemonic := mnemonics.find? (fun m => m.text = t)

/-- The one pseudo-instruction (R104, R115; decision D19, log entry 18). -/
def pseudoJump : Text := "j".toList

/-- An operand after label substitution: its text, or the byte offset a label was replaced by (R105). -/
inductive Operand where
  | text (t : Text)
  | offset (v : Int)
  deriving DecidableEq, Repr

/-- A parsed instruction, its immediates still as written: not yet range-checked, odd offsets possible (R106 to R108). -/
inductive Line where
  | add (rd rs1 rs2 : RegIdx)
  | sub (rd rs1 rs2 : RegIdx)
  | slt (rd rs1 rs2 : RegIdx)
  | addi (rd rs1 : RegIdx) (imm : Int)
  | slli (rd rs1 : RegIdx) (shamt : Int)
  | lw (rd : RegIdx) (imm : Int) (rs1 : RegIdx)
  | sw (rs2 : RegIdx) (imm : Int) (rs1 : RegIdx)
  | beq (rs1 rs2 : RegIdx) (offset : Int)
  | bne (rs1 rs2 : RegIdx) (offset : Int)
  | blt (rs1 rs2 : RegIdx) (offset : Int)
  | jal (rd : RegIdx) (offset : Int)
  | jalr (rd : RegIdx) (imm : Int) (rs1 : RegIdx)
  deriving DecidableEq, Repr

/-! ### The builder: range checks and words (R107 to R109) -/

/-- lo ≤ v ≤ hi. -/
def inRange (lo hi v : Int) : Bool := decide (lo ≤ v) && decide (v ≤ hi)

/-- The range of the I and, by decision D15 (log entry 14), the S immediate (R108). -/
def fitsI (v : Int) : Bool := inRange (-2048) 2047 v

/-- The range of a shift amount (R108). -/
def fitsShift (v : Int) : Bool := inRange 0 31 v

/-- The range of a B immediate as the document gives it, odd values and 4095 included (R108; 90_conflicts.md C1). -/
def fitsB (v : Int) : Bool := inRange (-4096) 4095 v

/-- The range of a J immediate as the document gives it (R108; 90_conflicts.md C1). -/
def fitsJ (v : Int) : Bool := inRange (-1048576) 1048575 v

/-- The word if the immediate is in range, else "immediate out of range" (R108). -/
def checked (ok : Bool) (w : Word) : Except Error Word := if ok then .ok w else .error .immediateOutOfRange

/-- The word a line assembles to (R107) under the opcode constants `c` (00_scope.md R8), after its range check (R108).
Ignored bits are zero (R109; decision D20, log entry 19); bit 0 of a B or J offset is dropped (R78, R79). -/
def build (c : OpcodeTable) : Line → Except Error Word
  | .add rd rs1 rs2 => .ok (encR c.opRType rd c.f3AddSub rs1 rs2 c.f7Add)
  | .sub rd rs1 rs2 => .ok (encR c.opRType rd c.f3AddSub rs1 rs2 c.f7Sub)
  | .slt rd rs1 rs2 => .ok (encR c.opRType rd c.f3Slt rs1 rs2 0)
  | .addi rd rs1 imm => checked (fitsI imm) (encI c.opIType rd c.f3Addi rs1 (BitVec.ofInt 12 imm))
  | .slli rd rs1 shamt =>
    checked (fitsShift shamt) (encI c.opIType rd c.f3Slli rs1 (BitVec.ofInt 12 shamt))
  | .lw rd imm rs1 => checked (fitsI imm) (encI c.opLoad rd c.f3Lw rs1 (BitVec.ofInt 12 imm))
  | .sw rs2 imm rs1 => checked (fitsI imm) (encS c.opStore c.f3Sw rs1 rs2 (BitVec.ofInt 12 imm))
  | .beq rs1 rs2 offset =>
    checked (fitsB offset) (encB c.opBranch c.f3Beq rs1 rs2 (BitVec.ofInt 13 offset))
  | .bne rs1 rs2 offset =>
    checked (fitsB offset) (encB c.opBranch c.f3Bne rs1 rs2 (BitVec.ofInt 13 offset))
  | .blt rs1 rs2 offset =>
    checked (fitsB offset) (encB c.opBranch c.f3Blt rs1 rs2 (BitVec.ofInt 13 offset))
  | .jal rd offset => checked (fitsJ offset) (encJ c.opJal rd (BitVec.ofInt 21 offset))
  | .jalr rd imm rs1 => checked (fitsI imm) (encI c.opJalr rd 0 rs1 (BitVec.ofInt 12 imm))

/-- The instruction a line stands for, its immediates as the hardware holds them: the offset's bit 0 dropped (R108). -/
def Line.instr : Line → Instr
  | .add rd rs1 rs2 => .add rd rs1 rs2
  | .sub rd rs1 rs2 => .sub rd rs1 rs2
  | .slt rd rs1 rs2 => .slt rd rs1 rs2 0
  | .addi rd rs1 imm => .addi rd rs1 (BitVec.ofInt 12 imm)
  | .slli rd rs1 shamt => .slli rd rs1 (BitVec.ofInt 12 shamt)
  | .lw rd imm rs1 => .lw rd rs1 (BitVec.ofInt 12 imm)
  | .sw rs2 imm rs1 => .sw rs2 rs1 (BitVec.ofInt 12 imm)
  | .beq rs1 rs2 offset => .beq rs1 rs2 (BitVec.ofInt 13 (offset - offset % 2))
  | .bne rs1 rs2 offset => .bne rs1 rs2 (BitVec.ofInt 13 (offset - offset % 2))
  | .blt rs1 rs2 offset => .blt rs1 rs2 (BitVec.ofInt 13 (offset - offset % 2))
  | .jal rd offset => .jal rd (BitVec.ofInt 21 (offset - offset % 2))
  | .jalr rd imm rs1 => .jalr rd rs1 (BitVec.ofInt 12 imm) 0

/-! ### Operands and parsing (R101 to R103, R106, R107) -/

/-- A register operand (R101); any other text is a mismatch (R106), but for the unstated forms. -/
def regOperand : Operand → Except Stop RegIdx
  | .offset _ => .error (.error .invalidOperands)
  | .text t =>
    match registerNamed t with
    | some r => .ok r
    | none => if isUnstatedRegister t then .error (.refuse .registerForm) else .error (.error .invalidOperands)

/-- An immediate operand (R102); any other text is a mismatch (R106), but for the unstated forms. -/
def immText (t : Text) : Except Stop Int :=
  match numeral t with
  | some v => .ok v
  | none => if isUnstatedNumeral t then .error (.refuse .numeralForm) else .error (.error .invalidOperands)

/-- An immediate or, where a label stood, its offset (R105). -/
def immOperand : Operand → Except Stop Int
  | .offset v => .ok v
  | .text t => immText t

/-- A shift amount; a numeral with a minus sign is refused (R114; 95_test_vectors.md section 5). -/
def shiftOperand : Operand → Except Stop Int
  | .offset v => .ok v
  | .text t =>
    if (numeral t).isSome && t.head? = some '-' then .error (.refuse .negativeShift) else immText t

/-- Two parts of an operand list. A mismatch of either is a mismatch of the whole, whatever is unstated in the other. -/
def both {α β : Type} (a : Except Stop α) (b : Except Stop β) : Except Stop (α × β) :=
  match a, b with
  | .ok x, .ok y => .ok (x, y)
  | .error (.error e), _ => .error (.error e)
  | _, .error (.error e) => .error (.error e)
  | .error (.refuse u), _ => .error (.refuse u)
  | _, .error (.refuse u) => .error (.refuse u)

/-- A memory operand `imm(xN)` (R103). -/
def memOperand : Operand → Except Stop (Int × RegIdx)
  | .offset _ => .error (.error .invalidOperands)
  | .text t =>
    match pieces '(' t with
    | [before, after] =>
      if after.getLast? = some ')' then both (immText before) (regOperand (.text after.dropLast))
      else .error (.error .invalidOperands)
    | _ => .error (.error .invalidOperands)

/-- Three registers. -/
def threeRegs (f : RegIdx → RegIdx → RegIdx → Line) : List Operand → Except Stop Line
  | [a, b, c] => (both (regOperand a) (both (regOperand b) (regOperand c))).map (fun r => f r.1 r.2.1 r.2.2)
  | _ => .error (.error .invalidOperands)

/-- Two registers and an immediate read by `imm`. -/
def twoRegsImm (imm : Operand → Except Stop Int) (f : RegIdx → RegIdx → Int → Line) : List Operand → Except Stop Line
  | [a, b, c] => (both (regOperand a) (both (regOperand b) (imm c))).map (fun r => f r.1 r.2.1 r.2.2)
  | _ => .error (.error .invalidOperands)

/-- A register and an immediate. -/
def regImm (f : RegIdx → Int → Line) : List Operand → Except Stop Line
  | [a, b] => (both (regOperand a) (immOperand b)).map (fun r => f r.1 r.2)
  | _ => .error (.error .invalidOperands)

/-- A register and a memory operand. -/
def regMem (f : RegIdx → Int → RegIdx → Line) : List Operand → Except Stop Line
  | [a, b] => (both (regOperand a) (memOperand b)).map (fun r => f r.1 r.2.1 r.2.2)
  | _ => .error (.error .invalidOperands)

/-- The operand shapes of the mnemonic table (R107). -/
def parse : Mnemonic → List Operand → Except Stop Line
  | .add => threeRegs .add
  | .sub => threeRegs .sub
  | .slt => threeRegs .slt
  | .addi => twoRegsImm immOperand .addi
  | .slli => twoRegsImm shiftOperand .slli
  | .lw => regMem .lw
  | .sw => regMem .sw
  | .beq => twoRegsImm immOperand .beq
  | .bne => twoRegsImm immOperand .bne
  | .blt => twoRegsImm immOperand .blt
  | .jal => regImm .jal
  | .jalr => regMem .jalr

/-! ### Pass 1: labels and instruction lines (R98 to R100) -/

/-- The Label Map: name to byte address from the start of the unit (R99). -/
abbrev LabelMap := List (Text × Nat)

/-- The address of a label. Names are compared character by character, so names that differ in letter case are different
labels; the spec does not say so: DESIGN CHOICE, log entry 21. -/
def labelAddress (labels : LabelMap) (name : Text) : Option Nat := labels.lookup name

/-- What pass 1 collects: the Label Map and the instruction lines in order, each with its source line number (R100). -/
structure Pass1 where
  labels : LabelMap
  lines : List (Nat × Text)
  deriving DecidableEq, Repr

/-- Record one label at the address of the next instruction line (R99). -/
def addLabel (p : Pass1) (name : Text) : Except Unstated Pass1 :=
  if !isName name || looksRegister name then .error .labelText
  else if (labelAddress p.labels name).isSome then .error .duplicateLabel
  else .ok { p with labels := p.labels ++ [(name, 4 * p.lines.length)] }

/-- Record the labels of one line, in order. -/
def addLabels (p : Pass1) : List Text → Except Unstated Pass1
  | [] => .ok p
  | name :: rest =>
    match addLabel p name with
    | .ok q => addLabels q rest
    | .error u => .error u

/-- The names of the `label:` prefixes of a source line, after its comment is stripped (R98, R99). -/
def labelsOf (raw : Text) : List Text := (pieces ':' (trim (stripComment raw))).dropLast.map (fun t => t.dropWhile isSpace)

/-- The instruction text of a source line, empty if it is blank or label-only (R98, R99). -/
def instructionText (raw : Text) : Text := trim ((pieces ':' (trim (stripComment raw))).getLast?.getD [])

/-- How many of the lines are instruction lines: `instrIndex` after them (R98, R99). -/
def instructionCount (source : List Text) : Nat := (source.filter (fun raw => instructionText raw != [])).length

/-- One source line: record its labels, keep the instruction text if any is left (R98 to R100). -/
def pass1Line (src : Nat) (raw : Text) (p : Pass1) : Except Unstated Pass1 :=
  match addLabels p (labelsOf raw) with
  | .error u => .error u
  | .ok q =>
    if instructionText raw = [] then .ok q else .ok { q with lines := q.lines ++ [(src, instructionText raw)] }

/-- Pass 1 over the lines from source line `src` on. -/
def pass1From (src : Nat) : List Text → Pass1 → Except (Nat × Unstated) Pass1
  | [], p => .ok p
  | raw :: rest, p =>
    match pass1Line src raw p with
    | .ok q => pass1From (src + 1) rest q
    | .error u => .error (src, u)

/-- Pass 1 (R98 to R100); source lines are numbered from 1. -/
def pass1 (source : List Text) : Except (Nat × Unstated) Pass1 := pass1From 1 source ⟨[], []⟩

/-! ### Pass 2: pseudo-instructions, label substitution, parsing, building (R104 to R110) -/

/-- Mnemonic and operand texts of an instruction line, all white space in the operands removed (R106). -/
def splitLine (t : Text) : Text × List Text :=
  let operands := (t.dropWhile (fun c => !isSpace c)).filter (fun c => !isSpace c)
  (t.takeWhile (fun c => !isSpace c), if operands = [] then [] else pieces ',' operands)

/-- Step a: `j target` becomes `jal x0, target` (R104). -/
def expandPseudo (line : Text × List Text) : Except Stop (Text × List Text) :=
  if line.1 = pseudoJump then
    match line.2 with
    | [target] => .ok (Mnemonic.jal.text, ["x0".toList, target])
    | _ => .error (.refuse .pseudoOperands)
  else .ok line

/-- The mnemonic of a line; another letter case of one is refused, any other text is "unsupported instruction" (R106). -/
def mnemonicOf (t : Text) : Except Stop Mnemonic :=
  match mnemonicNamed t with
  | some m => .ok m
  | none =>
    let lower := t.map Char.toLower
    if (mnemonicNamed lower).isSome || lower = pseudoJump then .error (.refuse .mnemonicCase)
    else .error (.error .unsupportedInstruction)

/-- The mnemonics whose last operand may be a label, with the number of operands they take (R105). -/
def labelArity : Mnemonic → Option Nat
  | .beq => some 3
  | .bne => some 3
  | .blt => some 3
  | .jal => some 2
  | .add => none
  | .sub => none
  | .slt => none
  | .addi => none
  | .slli => none
  | .lw => none
  | .sw => none
  | .jalr => none

/-- A label operand of the instruction at index `idx`: a numeric literal passes unchanged, a known label becomes its
PC-relative byte offset, any other text is an unknown label, an empty one too (R105; log entry 21). Refused is only a text
of which R114 leaves open whether it is a numeric literal. -/
def targetOperand (labels : LabelMap) (idx : Nat) (t : Text) : Except Stop Operand :=
  if (numeral t).isSome then .ok (.text t)
  else
    match labelAddress labels t with
    | some address => .ok (.offset ((address : Int) - 4 * (idx : Int)))
    | none => if isUnstatedNumeral t then .error (.refuse .numeralForm) else .error (.error .unknownLabel)

/-- Step b: label substitution in the final operand, for the mnemonics that take a label (R105). -/
def substitute (labels : LabelMap) (idx : Nat) (m : Mnemonic) (operands : List Text) : Except Stop (List Operand) :=
  if labelArity m = some operands.length then
    match operands.getLast? with
    | some t =>
      match targetOperand labels idx t with
      | .ok o => .ok (operands.dropLast.map .text ++ [o])
      | .error e => .error e
    | none => .ok (operands.map .text)
  else .ok (operands.map .text)

/-- Steps a, b and c on one instruction line, then the builder. -/
def assembleLine (c : OpcodeTable) (labels : LabelMap) (idx : Nat) (t : Text) : Except Stop Word :=
  match expandPseudo (splitLine t) with
  | .error e => .error e
  | .ok (name, texts) =>
    match mnemonicOf name with
    | .error e => .error e
    | .ok m =>
      match substitute labels idx m texts with
      | .error e => .error e
      | .ok operands =>
        match parse m operands with
        | .error e => .error e
        | .ok line =>
          match build c line with
          | .ok w => .ok w
          | .error e => .error (.error e)

/-- Pass 2 over the instruction lines from index `idx` on; the first failure ends it with its source line (R110). -/
def pass2From (c : OpcodeTable) (labels : LabelMap) (idx : Nat) : List (Nat × Text) → Except (Nat × Stop) (List Word)
  | [] => .ok []
  | (src, t) :: rest =>
    match assembleLine c labels idx t with
    | .error e => .error (src, e)
    | .ok w =>
      match pass2From c labels (idx + 1) rest with
      | .ok ws => .ok (w :: ws)
      | .error e => .error e

/-- Assemble the lines of the file named `file` for the machine whose opcode constants are `c`: all-or-nothing (R110, R112).
-/
def assemble (c : OpcodeTable) (file : Text) (source : List Text) : Result :=
  match pass1 source with
  | .error (src, u) => .refused src u
  | .ok p =>
    match pass2From c p.labels 0 p.lines with
    | .ok ws => .words ws
    | .error (src, .error e) => .error file src e
    | .error (src, .refuse u) => .refused src u

/-! ### The printed form of a word (R116): the line of R107 that assembles to it, with numeric offsets -/

/-- A register's name (R16, R101). -/
def regText (r : RegIdx) : Text := 'x' :: Nat.toDigits 10 r.toNat

/-- A decimal numeral. -/
def intText (v : Int) : Text := if v < 0 then '-' :: Nat.toDigits 10 v.natAbs else Nat.toDigits 10 v.natAbs

/-- A mnemonic and its operands, separated by commas. -/
def lineText (m : Mnemonic) (operands : List Text) : Text := m.text ++ ' ' :: [',', ' '].intercalate operands

/-- `imm(xN)`. -/
def memText (imm : BitVec 12) (r : RegIdx) : Text := intText imm.toInt ++ '(' :: (regText r ++ [')'])

/-- The source line of an instruction; none for one whose ignored bits no line gives (R116). -/
def sourceLine (i : Instr) : Option Text :=
  if i.wf && i.canonical then
    some (match i with
      | .add rd rs1 rs2 => lineText .add [regText rd, regText rs1, regText rs2]
      | .sub rd rs1 rs2 => lineText .sub [regText rd, regText rs1, regText rs2]
      | .slt rd rs1 rs2 _ => lineText .slt [regText rd, regText rs1, regText rs2]
      | .addi rd rs1 imm => lineText .addi [regText rd, regText rs1, intText imm.toInt]
      | .slli rd rs1 imm => lineText .slli [regText rd, regText rs1, intText imm.toInt]
      | .lw rd rs1 imm => lineText .lw [regText rd, memText imm rs1]
      | .sw rs2 rs1 imm => lineText .sw [regText rs2, memText imm rs1]
      | .beq rs1 rs2 imm => lineText .beq [regText rs1, regText rs2, intText imm.toInt]
      | .bne rs1 rs2 imm => lineText .bne [regText rs1, regText rs2, intText imm.toInt]
      | .blt rs1 rs2 imm => lineText .blt [regText rs1, regText rs2, intText imm.toInt]
      | .jal rd imm => lineText .jal [regText rd, intText imm.toInt]
      | .jalr rd rs1 imm _ => lineText .jalr [regText rd, memText imm rs1])
  else none

end Sys2Proof.Asm
end

