-- ==== Sys2Proof/Machine/Pseudocode.lean ====
section
/-! DEFINITION. The complete step of 40_step_cycle.md R127, line by line over the fields of the fetched word, as the spec
writes it. The machine does not run it: it is the text that `stepWith` is held against (an obligation states that the two are
equal). -/

namespace Sys2Proof.Machine

open Codec

/-- R127, under the opcode constants `c` (00_scope.md R8). The right-hand `pc` of every arm is the pc at the start of the
step. -/
def pseudoStep (c : OpcodeTable) (s : State) : Host.Outcome State Fault Refusal :=
  match s.mem.readWord s.pc with
  | none => .fault .fetchOutOfBounds
  | some w =>
    let a := s.readReg (rs1 w)
    let b := s.readReg (rs2 w)
    match opclassWith c w with
    | .invalid => .fault .invalidOpcode
    | .rType =>
      if funct3 w = c.f3AddSub ∧ funct7 w = c.f7Add then
        .next ((s.writeReg (rd w) (a + b)).setPc (s.pc + 4))
      else if funct3 w = c.f3AddSub ∧ funct7 w = c.f7Sub then
        .next ((s.writeReg (rd w) (a - b)).setPc (s.pc + 4))
      else if funct3 w = c.f3Slt then
        .next ((s.writeReg (rd w) (if a.toInt < b.toInt then 1 else 0)).setPc (s.pc + 4))
      else .fault .unimplementedInstruction
    | .iType =>
      if funct3 w = c.f3Addi then .next ((s.writeReg (rd w) (a + immI w)).setPc (s.pc + 4))
      else if funct3 w = c.f3Slli then
        .next ((s.writeReg (rd w) (a <<< (immI w &&& 0x1F).toNat)).setPc (s.pc + 4))
      else .fault .unimplementedInstruction
    | .load =>
      if funct3 w ≠ c.f3Lw then .fault .unimplementedInstruction
      else
        match s.mem.readWord (a + immI w) with
        | none => .fault .loadOutOfBounds
        | some v => .next ((s.writeReg (rd w) v).setPc (s.pc + 4))
    | .store =>
      if funct3 w ≠ c.f3Sw then .fault .unimplementedInstruction
      else
        match s.mem.writeWord (a + immS w) b with
        | none => .fault .storeOutOfBounds
        | some m => .next { s with mem := m, pc := s.pc + 4 }
    | .branch =>
      if funct3 w = c.f3Beq then .next (s.setPc (if a = b then s.pc + immB w else s.pc + 4))
      else if funct3 w = c.f3Bne then .next (s.setPc (if a ≠ b then s.pc + immB w else s.pc + 4))
      else if funct3 w = c.f3Blt then .next (s.setPc (if a.toInt < b.toInt then s.pc + immB w else s.pc + 4))
      else .fault .unimplementedInstruction
    | .jal => .next ((s.writeReg (rd w) (s.pc + 4)).setPc (s.pc + immJ w))
    | .jalr => .next ((s.writeReg (rd w) (s.pc + 4)).setPc ((a + immI w) &&& 0xFFFFFFFE))

end Sys2Proof.Machine
end

