-- ==== Sys2Proof/Machine/HostPort.lean ====
section
/-! DEFINITION. The host port (10_state.md R27 to R33; decision D12, log entry 12): the five requests, served one at a time,
what the host can read between them, and the end of a run (70_reset_and_hazards.md R197). -/

namespace Sys2Proof.Machine

/-- The five requests (R27). `idx` is 5 bits wide, so no index above 31 can be formed (R29; decision D13, log entry 12). -/
inductive HostRequest where
  | step
  | setRegister (idx : RegIdx) (value : Word)
  | setPc (value : Word)
  | reset
  | loadProgram (words : List Word) (startAddr : Word)
  deriving DecidableEq, Repr

/-- What a request returns: ok, or for STEP one of the five errors (R28, R158), or the model's refusal. -/
inductive HostReply where
  | ok
  | error (f : Fault)
  | refused (r : Refusal)
  deriving DecidableEq, Repr

/-- The result code of a STEP: 0 for ok, else the error's code (60_exceptions.md R159); none for a refusal, which is no
result of the hardware. -/
def HostReply.code (r : HostReply) : Option Nat :=
  match r with
  | .ok => some 0
  | .error f => some f.code
  | .refused _ => none

/-- `STEP` (R28) of the machine whose opcode constants are `c` (00_scope.md R8): the state after it and its result. A failed
step leaves every register, the pc and every byte as they were (40_step_cycle.md R125), and the result is not kept (R130). -/
def stepRequest (c : OpcodeTable) (s : State) : State × HostReply :=
  match stepWith c s with
  | .next t => (t, .ok)
  | .fault f => (s, .error f)
  | .refused r => (s, .refused r)

/-- The memory writes of LOAD_PROGRAM, word after word at ascending addresses (R32). -/
def Memory.loadWords (m : Memory) (addr : Word) : List Word → Option Memory
  | [] => some m
  | w :: rest =>
    match m.writeWord addr w with
    | some m' => m'.loadWords (addr + instrSize) rest
    | none => none

/-- Whether a program of `n` words fits at `startAddr`, in unbounded integers (R32, R190). -/
abbrev Memory.fits (m : Memory) (startAddr : Word) (n : Nat) : Prop := startAddr.toNat + 4 * n ≤ m.size

/-- `LOAD_PROGRAM(words, startAddr)` (R32): writes word i at startAddr + 4*i and sets the pc; registers are not changed.
Where the words do not fit the request has no meaning and is refused (decision D21, log entry 20). -/
def loadProgramRequest (words : List Word) (startAddr : Word) (s : State) : State × HostReply :=
  if s.mem.fits startAddr words.length then
    match s.mem.loadWords startAddr words with
    | some m => ({ s with mem := m, pc := startAddr }, .ok)
    | none => (s, .refused .loadProgramDoesNotFit)
  else (s, .refused .loadProgramDoesNotFit)

/-- One request, served to completion (R27) by the machine whose opcode constants are `c`, which only STEP reads, and whose
RESET_PC is `resetPc`, which only RESET reads (00_scope.md R7, R8). RESET keeps MEM_SIZE (R31). -/
def serve (c : OpcodeTable) (resetPc : Word) (r : HostRequest) (s : State) : State × HostReply :=
  match r with
  | .step => stepRequest c s
  | .setRegister idx value => (s.writeReg idx value, .ok)
  | .setPc value => (s.setPc value, .ok)
  | .reset => (State.construct s.mem.size resetPc, .ok)
  | .loadProgram words startAddr => loadProgramRequest words startAddr s

/-- A sequence of requests, each served to completion before the next is accepted (R27), with their replies. -/
def serveAll (c : OpcodeTable) (resetPc : Word) : List HostRequest → State → State × List HostReply
  | [], s => (s, [])
  | r :: rest, s =>
    let (s1, reply) := serve c resetPc r s
    let (s2, replies) := serveAll c resetPc rest s1
    (s2, reply :: replies)

/-! ### Observation between requests (R33): registers, pc and memory words; reading changes nothing -/

/-- Read of x[i]. -/
def observeReg (s : State) (i : RegIdx) : Word := s.readReg i

/-- Read of the pc. -/
def observePc (s : State) : Word := s.pc

/-- The memory's own readWord. -/
def observeWord (s : State) (addr : Word) : Option Word := s.mem.readWord addr

/-! ### The end of a run (70_reset_and_hazards.md R197; decision D17, log entry 16) -/

/-- A run of at most `n` STEP requests: it ends at the first that does not return ok, and gives the state then with that
reply; none says that `n` steps returned ok and the run had not ended. -/
def runToError (c : OpcodeTable) : Nat → State → State × Option HostReply
  | 0, s => (s, none)
  | n + 1, s =>
    match stepRequest c s with
    | (t, .ok) => runToError c n t
    | (t, .error f) => (t, some (.error f))
    | (t, .refused r) => (t, some (.refused r))

end Sys2Proof.Machine
end

