-- ==== Sys2Proof/Safety.lean ====
section
/-! DEFINITION. The terms the statements use: the invariants, and what "nothing else changed" means. -/

namespace Sys2Proof.Machine

/-- The invariant of every machine the host can build: the memory is in canonical form, inside its buffer, and MEM_SIZE is
at most 2^32 (00_scope.md R7, 20_memory.md R37). -/
def State.wf (s : State) : Bool := s.mem.wf

/-- An even pc (10_state.md R21). -/
def State.pcEven (s : State) : Prop := s.pc.toNat % 2 = 0

/-- Every register but `rd` reads as before. -/
def SameRegsBut (rd : RegIdx) (s t : State) : Prop := ∀ r : RegIdx, r ≠ rd → t.readReg r = s.readReg r

/-- Every register reads as before. -/
def SameRegs (s t : State) : Prop := ∀ r : RegIdx, t.readReg r = s.readReg r

/-- MEM_SIZE and every byte of memory are as before. -/
def SameMemory (s t : State) : Prop := t.mem.size = s.mem.size ∧ ∀ a : Nat, t.mem.readByte a = s.mem.readByte a

/-- MEM_SIZE and every byte of memory but the four from `addr` up are as before. -/
def SameMemoryBut (addr : Word) (s t : State) : Prop :=
  t.mem.size = s.mem.size ∧
    ∀ a : Nat, a < addr.toNat ∨ addr.toNat + 4 ≤ a → t.mem.readByte a = s.mem.readByte a

/-- What a write of `v` to register `rd` leaves there: `v`, or 0 for register 0 (10_state.md R15). -/
def writtenReg (rd : RegIdx) (v : Word) : Word := if rd = 0 then 0 else v

/-- A safe step of the machine whose opcode constants are `c`: one that completes (the spec's result `ok`, 40_step_cycle.md R130). -/
def Completes (c : OpcodeTable) (s : State) : Prop := ∃ t, stepWith c s = .next t

end Sys2Proof.Machine
end

