-- ==== Sys2Proof/Certificates/Slice0/Obligations.lean ====
section
/-! DEFINITION. The statements for the provers, from the numbered rules of spec/. A docstring names the rule; where a clause
rests on one of the spec's own decisions (D<n>) or on a choice of this model, it names that and the log entry. -/

open Sys2Proof Sys2Proof.Machine Sys2Proof.Codec

/-! ### The codec and the opcode map -/

/-- One word of every instruction, written out field by field in the spec (95_test_vectors.md section 2.7), decodes to that
instruction. The bits are the default constants (decisions D1, D2; log entries 1, 2). -/
def Obligations.SpecWordsDecode : Prop :=
  decode 0b0000000_00010_00001_000_00011_0110011 = .ok (.add 3 1 2) ∧
  decode 0b0100000_00010_00001_000_00011_0110011 = .ok (.sub 3 1 2) ∧
  decode 0b0000000_00010_00001_010_00011_0110011 = .ok (.slt 3 1 2 0) ∧
  decode 0b100000000000_00001_000_00010_0010011 = .ok (.addi 2 1 (-2048)) ∧
  decode 0b000000011111_00001_001_00010_0010011 = .ok (.slli 2 1 31) ∧
  decode 0b111111111100_00010_010_00011_0000011 = .ok (.lw 3 2 (-4)) ∧
  decode 0b1111111_00001_00010_010_11100_0100011 = .ok (.sw 1 2 (-4)) ∧
  decode 0b0_000000_00010_00001_000_0100_0_1100011 = .ok (.beq 1 2 8) ∧
  decode 0b0_000000_00010_00001_001_0100_0_1100011 = .ok (.bne 1 2 8) ∧
  decode 0b1_111111_00010_00001_010_1100_1_1100011 = .ok (.blt 1 2 (-8)) ∧
  decode 0b1_1111111100_1_11111111_00000_1101111 = .ok (.jal 0 (-8)) ∧
  decode 0b111111111111_00010_000_00001_1100111 = .ok (.jalr 1 2 (-1) 0)

/-- Decode and encode agree (R81, R87, R92), whatever the constants, as long as they meet the document's constraints: every
well-formed instruction is read back from its word, and from its four bytes in memory order. -/
def Obligations.DecodeOfEncodeIsTheInstruction : Prop :=
  ∀ (t : OpcodeTable) (i : Instr), t.distinct = true → i.wf = true →
    decodeWith t (encodeWith t i) = .ok i ∧
    ∀ rest : List Byte, decodeBytesWith t (wordBytes (encodeWith t i) ++ rest) = some (.ok i, rest)

/-- The other direction (R92): an instruction word is the encoding of exactly the instruction it decodes to, its ignored
bits among it, and what is decoded is well-formed. -/
def Obligations.EncodeOfDecodeIsTheWord : Prop :=
  ∀ (t : OpcodeTable) (w : Word) (i : Instr), decodeWith t w = .ok i → i.wf = true ∧ encodeWith t i = w

/-- The opcode map by mask and match, row by row (R87). The numbers are the default constants (decisions D1, D2; log entries
1, 2), and that SLT, SLLI and JALR match whatever their ignored bits is decision D4 (log entry 4). -/
def Obligations.OpcodeMapByMaskAndMatch : Prop :=
  ∀ w : Word,
    ((∃ a b c, decode w = .ok (.add a b c)) ↔ w &&& 0xFE00707F = 0x00000033) ∧
    ((∃ a b c, decode w = .ok (.sub a b c)) ↔ w &&& 0xFE00707F = 0x40000033) ∧
    ((∃ a b c d, decode w = .ok (.slt a b c d)) ↔ w &&& 0x0000707F = 0x00002033) ∧
    ((∃ a b c, decode w = .ok (.addi a b c)) ↔ w &&& 0x0000707F = 0x00000013) ∧
    ((∃ a b c, decode w = .ok (.slli a b c)) ↔ w &&& 0x0000707F = 0x00001013) ∧
    ((∃ a b c, decode w = .ok (.lw a b c)) ↔ w &&& 0x0000707F = 0x00002003) ∧
    ((∃ a b c, decode w = .ok (.sw a b c)) ↔ w &&& 0x0000707F = 0x00002023) ∧
    ((∃ a b c, decode w = .ok (.beq a b c)) ↔ w &&& 0x0000707F = 0x00000063) ∧
    ((∃ a b c, decode w = .ok (.bne a b c)) ↔ w &&& 0x0000707F = 0x00001063) ∧
    ((∃ a b c, decode w = .ok (.blt a b c)) ↔ w &&& 0x0000707F = 0x00002063) ∧
    ((∃ a b, decode w = .ok (.jal a b)) ↔ w &&& 0x0000007F = 0x0000006F) ∧
    ((∃ a b c d, decode w = .ok (.jalr a b c d)) ↔ w &&& 0x0000007F = 0x00000067)

/-- R82: the class is the one whose constant equals the low 7 bits, INVALID when none does, for any constants that are
pairwise different; of the 128 field values 121 are INVALID, whatever the seven constants are. -/
def Obligations.OpcodeClassIsTheMatchingTagOrInvalid : Prop :=
  ∀ t : OpcodeTable, t.distinct = true →
    (∀ w : Word,
      (opclassWith t w = .rType ↔ opfield w = t.opRType) ∧
      (opclassWith t w = .iType ↔ opfield w = t.opIType) ∧
      (opclassWith t w = .load ↔ opfield w = t.opLoad) ∧
      (opclassWith t w = .store ↔ opfield w = t.opStore) ∧
      (opclassWith t w = .branch ↔ opfield w = t.opBranch) ∧
      (opclassWith t w = .jal ↔ opfield w = t.opJal) ∧
      (opclassWith t w = .jalr ↔ opfield w = t.opJalr) ∧
      (opclassWith t w = .invalid ↔
        opfield w ∉ [t.opRType, t.opIType, t.opLoad, t.opStore, t.opBranch, t.opJal, t.opJalr])) ∧
    ((List.range 128).filter (fun v => decide (opclassWith t (BitVec.ofNat 32 v) = .invalid))).length = 121

/-- R89, R90: exactly which words are rejected, and how, under the default constants (decisions D1, D2; log entries 1, 2).
That SLT with any funct7, SLLI with any upper immediate bits and JALR with any funct3 are NOT rejected is decision D4 (R88;
log entry 4). -/
def Obligations.RejectedWordsExhaustively : Prop :=
  ∀ w : Word,
    (decode w = .invalidOpcode ↔ w.toNat % 128 ∉ [0x03, 0x13, 0x23, 0x33, 0x63, 0x67, 0x6F]) ∧
    (decode w = .unimplemented ↔
      (w.toNat % 128 = 0x33 ∧ (funct3 w ∈ [1, 3, 4, 5, 6, 7] ∨ (funct3 w = 0 ∧ funct7 w ∉ [0, 32]))) ∨
      (w.toNat % 128 = 0x13 ∧ funct3 w ∈ [2, 3, 4, 5, 6, 7]) ∨
      (w.toNat % 128 = 0x03 ∧ funct3 w ≠ 2) ∨
      (w.toNat % 128 = 0x23 ∧ funct3 w ≠ 2) ∨
      (w.toNat % 128 = 0x63 ∧ funct3 w ∈ [3, 4, 5, 6, 7]))

/-- R68: sign extension of an n-bit field: bit by bit, and as an integer. All four immediates are extended so. -/
def Obligations.SignExtensionOfAField : Prop :=
  (∀ (n : Nat) (v : BitVec n), 0 < n → n ≤ 32 →
    (∀ i, i < 32 → (sext32 v).getLsbD i = if i < n then v.getLsbD i else v.getLsbD (n - 1)) ∧
    (sext32 v).toInt = if v.getLsbD (n - 1) then (v.toNat : Int) - 2 ^ n else (v.toNat : Int)) ∧
  (∀ w : Word, immI w = sext32 (rawI w) ∧ immS w = sext32 (rawS w) ∧ immB w = sext32 (rawB w) ∧ immJ w = sext32 (rawJ w))

/-- R69 to R72: the signed value of each immediate from the word's bits, its range, and that B and J are even. The order of
the bits inside a piece is the spec's inference (R9, decision D3, log entry 3). -/
def Obligations.ImmediateValuesFromTheWord : Prop :=
  ∀ w : Word,
    ((immI w).toInt = (w.toNat / 2 ^ 20 % 2 ^ 11 : Nat) - 2 ^ 11 * ((w.toNat / 2 ^ 31 : Nat) : Int) ∧
      -2048 ≤ (immI w).toInt ∧ (immI w).toInt ≤ 2047) ∧
    ((immS w).toInt = (w.toNat / 2 ^ 25 % 2 ^ 6 * 2 ^ 5 + w.toNat / 2 ^ 7 % 2 ^ 5 : Nat)
        - 2 ^ 11 * ((w.toNat / 2 ^ 31 : Nat) : Int) ∧
      -2048 ≤ (immS w).toInt ∧ (immS w).toInt ≤ 2047) ∧
    ((immB w).toInt = (w.toNat / 2 ^ 7 % 2 * 2 ^ 11 + w.toNat / 2 ^ 25 % 2 ^ 6 * 2 ^ 5 + w.toNat / 2 ^ 8 % 2 ^ 4 * 2 : Nat)
        - 2 ^ 12 * ((w.toNat / 2 ^ 31 : Nat) : Int) ∧
      -4096 ≤ (immB w).toInt ∧ (immB w).toInt ≤ 4094 ∧ (immB w).toInt % 2 = 0) ∧
    ((immJ w).toInt = (w.toNat / 2 ^ 12 % 2 ^ 8 * 2 ^ 12 + w.toNat / 2 ^ 20 % 2 * 2 ^ 11 + w.toNat / 2 ^ 21 % 2 ^ 10 * 2 : Nat)
        - 2 ^ 20 * ((w.toNat / 2 ^ 31 : Nat) : Int) ∧
      -1048576 ≤ (immJ w).toInt ∧ (immJ w).toInt ≤ 1048574 ∧ (immJ w).toInt % 2 = 0)

/-- R80: an immediate in range is read back from the word it was set in, an odd B or J value with bit 0 cleared
(90_conflicts.md C1); and setting the immediate a word holds changes nothing. -/
def Obligations.ImmediateRoundTrip : Prop :=
  (∀ (w : Word) (x : Int), -2048 ≤ x → x ≤ 2047 → (immI (setImmI w (BitVec.ofInt 12 x))).toInt = x) ∧
  (∀ (w : Word) (x : Int), -2048 ≤ x → x ≤ 2047 → (immS (setImmS w (BitVec.ofInt 12 x))).toInt = x) ∧
  (∀ (w : Word) (x : Int), -4096 ≤ x → x ≤ 4095 → (immB (setImmB w (BitVec.ofInt 13 x))).toInt = x - x % 2) ∧
  (∀ (w : Word) (x : Int), -1048576 ≤ x → x ≤ 1048575 → (immJ (setImmJ w (BitVec.ofInt 21 x))).toInt = x - x % 2) ∧
  (∀ w : Word, setImmI w ((immI w).setWidth 12) = w ∧ setImmS w ((immS w).setWidth 12) = w ∧
    setImmB w ((immB w).setWidth 13) = w ∧ setImmJ w ((immJ w).setWidth 21) = w)

/-- R75 to R79: each mutator replaces exactly its bit range, bit by bit, and a plain field is read back. The positions of
funct3, rs1, rs2 and funct7 are the spec's inference (decision D3, log entry 3); that a mutator takes odd B and J values and
drops their bit 0 is decision D14 (log entry 13). -/
def Obligations.MutatorsReplaceExactlyTheirBits : Prop :=
  ∀ (w : Word) (i : Nat), i < 32 →
    (∀ v, (setOpcode w v).getLsbD i = (if i < 7 then v.getLsbD i else w.getLsbD i) ∧ opfield (setOpcode w v) = v) ∧
    (∀ v, (setRd w v).getLsbD i = (if 7 ≤ i ∧ i < 12 then v.getLsbD (i - 7) else w.getLsbD i) ∧ rd (setRd w v) = v) ∧
    (∀ v, (setFunct3 w v).getLsbD i = (if 12 ≤ i ∧ i < 15 then v.getLsbD (i - 12) else w.getLsbD i) ∧
      funct3 (setFunct3 w v) = v) ∧
    (∀ v, (setRs1 w v).getLsbD i = (if 15 ≤ i ∧ i < 20 then v.getLsbD (i - 15) else w.getLsbD i) ∧
      rs1 (setRs1 w v) = v) ∧
    (∀ v, (setRs2 w v).getLsbD i = (if 20 ≤ i ∧ i < 25 then v.getLsbD (i - 20) else w.getLsbD i) ∧
      rs2 (setRs2 w v) = v) ∧
    (∀ v, (setFunct7 w v).getLsbD i = (if 25 ≤ i then v.getLsbD (i - 25) else w.getLsbD i) ∧
      funct7 (setFunct7 w v) = v) ∧
    (∀ v, (setImmI w v).getLsbD i = if 20 ≤ i then v.getLsbD (i - 20) else w.getLsbD i) ∧
    (∀ v, (setImmS w v).getLsbD i =
      if 7 ≤ i ∧ i < 12 then v.getLsbD (i - 7) else if 25 ≤ i then v.getLsbD (i - 20) else w.getLsbD i) ∧
    (∀ v, (setImmB w v).getLsbD i =
      if i = 31 then v.getLsbD 12 else if 25 ≤ i then v.getLsbD (i - 20)
      else if 8 ≤ i ∧ i < 12 then v.getLsbD (i - 7) else if i = 7 then v.getLsbD 11 else w.getLsbD i) ∧
    (∀ v, (setImmJ w v).getLsbD i =
      if i = 31 then v.getLsbD 20 else if 21 ≤ i then v.getLsbD (i - 20)
      else if i = 20 then v.getLsbD 11 else if 12 ≤ i then v.getLsbD i else w.getLsbD i)

/-- R81: the whole-format encoders are the mutators applied one after another, from whatever word the builder starts. -/
def Obligations.EncodersAreMutatorChains : Prop :=
  ∀ (w : Word) (op : BitVec 7) (d : RegIdx) (f3 : BitVec 3) (a b : RegIdx),
    (∀ f7, setFunct7 (setRs2 (setRs1 (setFunct3 (setRd (setOpcode w op) d) f3) a) b) f7 = encR op d f3 a b f7) ∧
    (∀ imm, setImmI (setRs1 (setFunct3 (setRd (setOpcode w op) d) f3) a) imm = encI op d f3 a imm) ∧
    (∀ imm, setImmS (setRs2 (setRs1 (setFunct3 (setOpcode w op) f3) a) b) imm = encS op f3 a b imm) ∧
    (∀ imm, setImmB (setRs2 (setRs1 (setFunct3 (setOpcode w op) f3) a) b) imm = encB op f3 a b imm) ∧
    (∀ imm, setImmJ (setRd (setOpcode w op) d) imm = encJ op d imm)

/-! ### Registers and memory -/

/-- R15: a write replaces its slot and nothing else; a write to register 0 is discarded; register 0 reads 0. -/
def Obligations.RegisterWriteThenRead : Prop :=
  ∀ (s : State) (i j : RegIdx) (v : Word),
    (s.writeReg i v).readReg j = (if j = 0 then 0 else if j = i then v else s.readReg j) ∧
    (s.writeReg i v).pc = s.pc ∧ (s.writeReg i v).mem = s.mem ∧ (i = 0 → s.writeReg i v = s)

/-- R40: a word read is the four bytes from the address up, least significant first, or an error out of bounds. That it
succeeds at every address, aligned or not, is decision D7 (log entry 7), the bound in unbounded integers D8 (log entry
8). -/
def Obligations.WordReadIsLittleEndian : Prop :=
  ∀ (m : Memory) (addr : Word),
    (m.size < addr.toNat + 4 → m.readWord addr = none) ∧
    (addr.toNat + 4 ≤ m.size → ∃ w, m.readWord addr = some w ∧
      w.extractLsb' 0 8 = m.readByte addr.toNat ∧ w.extractLsb' 8 8 = m.readByte (addr.toNat + 1) ∧
      w.extractLsb' 16 8 = m.readByte (addr.toNat + 2) ∧ w.extractLsb' 24 8 = m.readByte (addr.toNat + 3))

/-- R41: a word write sets its four bytes and no other, or, out of bounds, is an error and writes nothing. That it succeeds at
every address, aligned or not, is decision D7 (log entry 7), the bound in unbounded integers D8 (log entry 8). -/
def Obligations.WordWriteIsAllOrNothing : Prop :=
  ∀ (m : Memory) (addr v : Word),
    (m.size < addr.toNat + 4 → m.writeWord addr v = none) ∧
    (addr.toNat + 4 ≤ m.size → ∃ m', m.writeWord addr v = some m' ∧ m'.size = m.size ∧
      m'.readByte addr.toNat = v.extractLsb' 0 8 ∧ m'.readByte (addr.toNat + 1) = v.extractLsb' 8 8 ∧
      m'.readByte (addr.toNat + 2) = v.extractLsb' 16 8 ∧ m'.readByte (addr.toNat + 3) = v.extractLsb' 24 8 ∧
      ∀ a : Nat, a < addr.toNat ∨ addr.toNat + 4 ≤ a → m'.readByte a = m.readByte a)

/-- The model's canonical form (its choice, log entry 24): two memories in that form with the same length and the same bytes
are the same data. -/
def Obligations.CanonicalMemoriesWithEqualBytesAreEqual : Prop :=
  ∀ m m' : Memory, m.wf = true → m'.wf = true → m.size = m'.size →
    (∀ a : Nat, a < m.size → m.readByte a = m'.readByte a) → m = m'

/-! ### Reset and the host port -/

/-- R31: RESET sets every register to 0, the pc to RESET_PC and every byte to 0, and keeps MEM_SIZE; it cannot fail. -/
def Obligations.ResetRequestGivesTheResetState : Prop :=
  ∀ (c : OpcodeTable) (resetPc : Word) (s : State), ∃ t, serve c resetPc .reset s = (t, .ok) ∧
    (∀ r : RegIdx, t.readReg r = 0) ∧ t.pc = resetPc ∧ (∀ a : Nat, t.mem.readByte a = 0) ∧ t.mem.size = s.mem.size

/-- R34: the values after reset. That the pc is 0 is the spec's decision D10 (log entry 10), that the machine `State.reset`
has 1024 bytes is this model's choice (log entry 9). -/
def Obligations.ResetStateValues : Prop :=
  (∀ r : RegIdx, State.reset.readReg r = 0) ∧ State.reset.pc = 0 ∧ (∀ a : Nat, State.reset.mem.readByte a = 0) ∧
    State.reset.mem.size = 1024 ∧ serve opcodes Config.resetPc .reset State.reset = (State.reset, .ok)

/-- R186: the reset state runs no program, for every MEM_SIZE and every RESET_PC: the fetch fails if no word stands at
RESET_PC, and the zero word there is rejected. This is for the opcode constants under which the class of the zero word is
INVALID, the default constants among them (decision D1, log entry 1). -/
def Obligations.FreshMachineRunsNoProgram : Prop :=
  opclassWith opcodes 0 = .invalid ∧
  ∀ (c : OpcodeTable) (n : Nat) (resetPc : Word), opclassWith c 0 = .invalid →
    serve c resetPc .step (State.construct n resetPc) =
      (State.construct n resetPc, .error (if n < resetPc.toNat + 4 then .fetchOutOfBounds else .invalidOpcode))

/-- R29, R30: SET_REGISTER writes one register (index 0 is a no-op) and SET_PC the pc, unchecked; nothing else changes and
neither can fail. The requests are the spec's decision D12 (log entry 12). -/
def Obligations.SetRegisterAndSetPcRequests : Prop :=
  ∀ (c : OpcodeTable) (resetPc : Word) (s : State) (i : RegIdx) (v : Word),
    (∃ t, serve c resetPc (.setRegister i v) s = (t, .ok) ∧ t.readReg i = writtenReg i v ∧ SameRegsBut i s t ∧
      t.pc = s.pc ∧ t.mem = s.mem) ∧
    (∃ t, serve c resetPc (.setPc v) s = (t, .ok) ∧ t.pc = v ∧ SameRegs s t ∧ t.mem = s.mem)

/-- R32, R190: a program that fits is written word after word and the pc set to its start; registers and all other bytes are
as before. One that does not fit is refused (decision D21, log entry 20), with nothing changed. -/
def Obligations.LoadProgramPlacesItsWords : Prop :=
  ∀ (c : OpcodeTable) (resetPc : Word) (s : State) (words : List Word) (start : Word),
    (start.toNat + 4 * words.length ≤ s.mem.size → s.mem.size ≤ 2 ^ 32 →
      ∃ t, serve c resetPc (.loadProgram words start) s = (t, .ok) ∧ t.pc = start ∧ SameRegs s t ∧
        t.mem.size = s.mem.size ∧
        (∀ (i : Nat) (w : Word), words[i]? = some w → t.mem.readWord (start + BitVec.ofNat 32 (4 * i)) = some w) ∧
        (∀ a : Nat, a < start.toNat ∨ start.toNat + 4 * words.length ≤ a → t.mem.readByte a = s.mem.readByte a)) ∧
    (s.mem.size < start.toNat + 4 * words.length →
      serve c resetPc (.loadProgram words start) s = (s, .refused .loadProgramDoesNotFit))

/-- R125: a step that fails leaves registers, pc and memory as they were, and the host gets the error. -/
def Obligations.FailedStepChangesNothing : Prop :=
  (∀ (c : OpcodeTable) (resetPc : Word) (s : State) (f : Fault), stepWith c s = .fault f →
    serve c resetPc .step s = (s, .error f)) ∧
  (∀ (c : OpcodeTable) (resetPc : Word) (s t : State) (r : HostReply), serve c resetPc .step s = (t, r) → r ≠ .ok →
    t = s)

/-- R126: a failed step repeated with no host action in between fails again with the same error, however often. -/
def Obligations.FailureRepeatsUntilTheHostActs : Prop :=
  ∀ (c : OpcodeTable) (resetPc : Word) (s t : State) (f : Fault) (n : Nat), serve c resetPc .step s = (t, .error f) →
    serveAll c resetPc (List.replicate n .step) t = (t, List.replicate n (.error f))

/-- R197: a run of at most `n` steps ends with a reply exactly when fewer than `n` steps from the start all return ok and the
next one returns that reply, which is not ok; the end state is the state then. It has not ended exactly when all `n` steps
return ok (decision D17, log entry 16). -/
def Obligations.RunEndsAtItsFirstError : Prop :=
  ∀ (c : OpcodeTable) (resetPc : Word) (n : Nat) (s t : State),
    (∀ r : HostReply, runToError c n s = (t, some r) ↔
      r ≠ .ok ∧ ∃ m, m < n ∧ serveAll c resetPc (List.replicate m .step) s = (t, List.replicate m .ok) ∧
        serve c resetPc .step t = (t, r)) ∧
    (runToError c n s = (t, none) ↔ serveAll c resetPc (List.replicate n .step) s = (t, List.replicate n .ok))

/-! ### The step -/

/-- R118, R119, R121: when the word at the pc decodes to an instruction, the step is that instruction's meaning at that
state; nothing is added around it. So it is for every machine, whatever its opcode constants, and `step` is the one with the
default constants (R8; decision D1, log entry 1). -/
def Obligations.StepRunsTheDecodedInstruction : Prop :=
  (∀ (c : OpcodeTable) (s : State) (w : Word) (i : Instr), s.mem.readWord s.pc = some w → decodeWith c w = .ok i →
    stepWith c s = exec i s) ∧
  (∀ (s : State) (w : Word) (i : Instr), s.mem.readWord s.pc = some w → decode w = .ok i → step s = exec i s)

/-- A well-formed instruction's word stored at the pc is what the next step runs, whatever the constants (R8, R118, R127; log
entry 23), and storing it changes nothing but its four bytes. -/
def Obligations.StoredWordRunsNext : Prop :=
  ∀ (c : OpcodeTable) (s : State) (i : Instr), c.distinct = true → i.wf = true → s.pc.toNat + 4 ≤ s.mem.size →
    stepWith c (s.withFetchWord 32 (encodeWith c i).toNat) = exec i (s.withFetchWord 32 (encodeWith c i).toNat) ∧
    SameRegs s (s.withFetchWord 32 (encodeWith c i).toNat) ∧ (s.withFetchWord 32 (encodeWith c i).toNat).pc = s.pc ∧
    SameMemoryBut s.pc s (s.withFetchWord 32 (encodeWith c i).toNat)

/-- R128, with the conditions of R160 to R164: the checks in their order. Each error is reported exactly when every earlier
check passed and its own failed, and a step has no other result than ok or one of the five (R130): it is never refused. This
holds whatever the opcode constants (R8). The bounds rest on decisions D5, D7 and D8 (log entries 5, 7, 8). -/
def Obligations.StepErrorsInOrder : Prop :=
  ∀ (c : OpcodeTable) (s : State),
    (stepWith c s = .fault .fetchOutOfBounds ↔ s.mem.size < s.pc.toNat + 4) ∧
    (stepWith c s = .fault .invalidOpcode ↔ ∃ w, s.fetch = some w ∧ opclassWith c w = .invalid) ∧
    (stepWith c s = .fault .unimplementedInstruction ↔
      ∃ w, s.fetch = some w ∧ opclassWith c w ≠ .invalid ∧ ∀ i, decodeWith c w ≠ .ok i) ∧
    (stepWith c s = .fault .loadOutOfBounds ↔ ∃ w rd rs1 imm, s.fetch = some w ∧ decodeWith c w = .ok (.lw rd rs1 imm) ∧
      s.mem.size < (s.effectiveAddress rs1 imm).toNat + 4) ∧
    (stepWith c s = .fault .storeOutOfBounds ↔ ∃ w rs2 rs1 imm, s.fetch = some w ∧ decodeWith c w = .ok (.sw rs2 rs1 imm) ∧
      s.mem.size < (s.effectiveAddress rs1 imm).toNat + 4) ∧
    (∀ r, stepWith c s ≠ .refused r)

/-- R127: the step is the spec's own pseudocode, read off the word field by field, whatever the opcode constants (R8). The
wrap of sums, the order of operand reads and the absence of alignment checks are the spec's decisions D4 to D8 (log entries 4
to 8). -/
def Obligations.StepIsThePseudocode : Prop :=
  ∀ (c : OpcodeTable) (s : State), stepWith c s = pseudoStep c s

/-- The memory keeps its canonical form and its length at every step, whatever the opcode constants (R7, R37; log entry 24). -/
def Obligations.WellFormedIsKeptByEveryStep : Prop :=
  (∀ (c : OpcodeTable) (s t : State), s.wf = true → stepWith c s = .next t → t.wf = true ∧ t.mem.size = s.mem.size) ∧
  (∀ s t : State, s.wf = true → step s = .next t → t.wf = true ∧ t.mem.size = s.mem.size)

/-- R21: an even pc stays even under every instruction, whatever the opcode constants. -/
def Obligations.EvenPcIsKeptByEveryStep : Prop :=
  (∀ (c : OpcodeTable) (s t : State), s.pcEven → stepWith c s = .next t → t.pcEven) ∧
  (∀ s t : State, s.pcEven → step s = .next t → t.pcEven)

/-- The two invariants hold after reset, for every MEM_SIZE the spec admits and, for the even pc, every even RESET_PC; that the
pc of `State.reset` is even rests on decision D10 (log entry 10). -/
def Obligations.ResetMeetsTheInvariants : Prop :=
  State.reset.wf = true ∧ State.reset.pcEven ∧
    ∀ (n : Nat) (resetPc : Word), n ≤ 2 ^ 32 → (State.construct n resetPc).wf = true ∧
      (resetPc.toNat % 2 = 0 → (State.construct n resetPc).pcEven)

/-- Every request keeps the canonical form and MEM_SIZE (R27 to R32). -/
def Obligations.HostRequestsKeepWellFormed : Prop :=
  ∀ (c : OpcodeTable) (resetPc : Word) (r : HostRequest) (s : State), s.wf = true →
    (serve c resetPc r s).1.wf = true ∧ (serve c resetPc r s).1.mem.size = s.mem.size

/-- R50, R129: only SW changes memory, and only its four bytes; every other step leaves every byte as it was. -/
def Obligations.OnlyStoreChangesMemory : Prop :=
  ∀ (c : OpcodeTable) (s t : State) (w : Word), s.fetch = some w → stepWith c s = .next t →
    (opclassWith c w ≠ .store → t.mem = s.mem) ∧
    (opclassWith c w = .store → SameMemoryBut (s.readReg (rs1 w) + immS w) s t)

/-- R17, R123: SW and the branches write no register, every other instruction at most the one its rd field names. -/
def Obligations.OnlyTheDestinationRegisterChanges : Prop :=
  ∀ (c : OpcodeTable) (s t : State) (w : Word), s.fetch = some w → stepWith c s = .next t →
    (opclassWith c w = .store ∨ opclassWith c w = .branch → SameRegs s t) ∧ SameRegsBut (rd w) s t

/-- R124: the pc after every step that completes, for all opcode constants the document admits (R8). Sums are modulo 2^32 (decision D5, log entry 5); that JALR takes the OLD
x[rs1], also when rd = rs1, is decision D6 (R155; log entry 6). -/
def Obligations.PcAfterEveryStep : Prop :=
  ∀ (c : OpcodeTable) (s t : State) (w : Word), c.distinct = true → s.fetch = some w → stepWith c s = .next t →
    (opclassWith c w ≠ .branch → opclassWith c w ≠ .jal → opclassWith c w ≠ .jalr → t.pc = s.pc + 4) ∧
    (opclassWith c w = .branch → t.pc =
      if (funct3 w = c.f3Beq ∧ s.readReg (rs1 w) = s.readReg (rs2 w)) ∨
          (funct3 w = c.f3Bne ∧ s.readReg (rs1 w) ≠ s.readReg (rs2 w)) ∨
          (funct3 w = c.f3Blt ∧ (s.readReg (rs1 w)).toInt < (s.readReg (rs2 w)).toInt)
      then s.pc + immB w else s.pc + 4) ∧
    (opclassWith c w = .jal → t.pc = s.pc + immJ w) ∧
    (opclassWith c w = .jalr → t.pc = (s.readReg (rs1 w) + immI w) &&& 0xFFFFFFFE)

/-- R53: a store is seen by every later fetch from its address, the very next one among them. -/
def Obligations.StoreIsSeenByTheNextFetch : Prop :=
  ∀ (rs2 rs1 : RegIdx) (imm : BitVec 12) (s t : State), exec (.sw rs2 rs1 imm) s = .next t →
    (t.setPc (s.effectiveAddress rs1 imm)).fetch = some (s.readReg rs2) ∧
    (s.effectiveAddress rs1 imm = s.pc + 4 → t.fetch = some (s.readReg rs2))

/-- R131: the step depends on nothing but the registers, the pc and the memory's length and bytes: states that agree on
these give the same result, and again agree on them. -/
def Obligations.ObservedStateDeterminesTheStep : Prop :=
  ∀ (c : OpcodeTable) (s s' : State), SameRegs s s' → s'.pc = s.pc → SameMemory s s' →
    (∀ t, stepWith c s = .next t → ∃ t', stepWith c s' = .next t' ∧ SameRegs t t' ∧ t'.pc = t.pc ∧ SameMemory t t') ∧
    (∀ f, stepWith c s = .fault f → stepWith c s' = .fault f)

/-! ### The instructions: each completes, with its result and with nothing else changed -/

/-- R133: ADD completes for every register and value: the 32-bit wrapping sum, pc + 4, nothing else. (The pc where pc + 4
leaves 32 bits is decision D5, log entry 5: `Obligations.PcAfterEveryStep`.) -/
def Obligations.AddWritesTheWrappedSum : Prop :=
  ∀ (rd rs1 rs2 : RegIdx) (s : State),
    decode (encR opcodes.opRType rd opcodes.f3AddSub rs1 rs2 opcodes.f7Add) = .ok (.add rd rs1 rs2) ∧
    ∃ t, exec (.add rd rs1 rs2) s = .next t ∧
      t.readReg rd = writtenReg rd (BitVec.ofNat 32 ((s.readReg rs1).toNat + (s.readReg rs2).toNat)) ∧
      SameRegsBut rd s t ∧ (s.pc.toNat + 4 < 2 ^ 32 → t.pc.toNat = s.pc.toNat + 4) ∧ SameMemory s t

/-- R134: SUB completes: first source minus second, wrapping, pc + 4, nothing else. (The pc where pc + 4 leaves 32 bits:
`Obligations.PcAfterEveryStep`.) -/
def Obligations.SubWritesTheWrappedDifference : Prop :=
  ∀ (rd rs1 rs2 : RegIdx) (s : State),
    decode (encR opcodes.opRType rd opcodes.f3AddSub rs1 rs2 opcodes.f7Sub) = .ok (.sub rd rs1 rs2) ∧
    ∃ t, exec (.sub rd rs1 rs2) s = .next t ∧
      t.readReg rd = writtenReg rd (BitVec.ofInt 32 ((s.readReg rs1).toNat - (s.readReg rs2).toNat)) ∧
      SameRegsBut rd s t ∧ (s.pc.toNat + 4 < 2 ^ 32 → t.pc.toNat = s.pc.toNat + 4) ∧ SameMemory s t

/-- R135: SLT completes for every value of the ignored funct7 (R88, decision D4, log entry 4): 1 or 0 by the signed
comparison. -/
def Obligations.SltWritesTheSignedComparison : Prop :=
  ∀ (rd rs1 rs2 : RegIdx) (funct7 : BitVec 7) (s : State),
    decode (encR opcodes.opRType rd opcodes.f3Slt rs1 rs2 funct7) = .ok (.slt rd rs1 rs2 funct7) ∧
    ∃ t, exec (.slt rd rs1 rs2 funct7) s = .next t ∧
      t.readReg rd = writtenReg rd (if (s.readReg rs1).toInt < (s.readReg rs2).toInt then 1 else 0) ∧
      SameRegsBut rd s t ∧ t.pc = s.pc + 4 ∧ SameMemory s t

/-- R138: ADDI completes: register plus signed immediate, modulo 2^32 (decision D5, log entry 5). -/
def Obligations.AddiWritesTheSum : Prop :=
  ∀ (rd rs1 : RegIdx) (imm : BitVec 12) (s : State),
    decode (encI opcodes.opIType rd opcodes.f3Addi rs1 imm) = .ok (.addi rd rs1 imm) ∧
    ∃ t, exec (.addi rd rs1 imm) s = .next t ∧
      t.readReg rd = writtenReg rd (BitVec.ofInt 32 ((s.readReg rs1).toNat + imm.toInt)) ∧
      SameRegsBut rd s t ∧ t.pc = s.pc + 4 ∧ SameMemory s t

/-- R139, R73: SLLI completes for every immediate: the amount is its low five bits, the rest is ignored (R88, decision D4,
log entry 4). -/
def Obligations.SlliShiftsByTheLowFiveBits : Prop :=
  ∀ (rd rs1 : RegIdx) (imm : BitVec 12) (s : State),
    decode (encI opcodes.opIType rd opcodes.f3Slli rs1 imm) = .ok (.slli rd rs1 imm) ∧
    ∃ t, exec (.slli rd rs1 imm) s = .next t ∧
      t.readReg rd = writtenReg rd (BitVec.ofNat 32 ((s.readReg rs1).toNat * 2 ^ (imm.toNat % 32))) ∧
      SameRegsBut rd s t ∧ t.pc = s.pc + 4 ∧ SameMemory s t

/-- R141: the effective address of LW and SW: base plus signed offset, modulo 2^32 (decision D5, log entry 5). -/
def Obligations.EffectiveAddressIsBasePlusOffset : Prop :=
  ∀ (s : State) (rs1 : RegIdx) (imm : BitVec 12),
    ((s.effectiveAddress rs1 imm).toNat : Int) = ((s.readReg rs1).toNat + imm.toInt) % 2 ^ 32

/-- R142, R145: LW completes at every address inside the memory, aligned or not (decision D7, log entry 7): the four bytes
go to rd, and to nowhere for rd = 0. The bound is in unbounded integers (decision D8, log entry 8). -/
def Obligations.LwLoadsTheWordInBounds : Prop :=
  ∀ (rd rs1 : RegIdx) (imm : BitVec 12) (s : State), (s.effectiveAddress rs1 imm).toNat + 4 ≤ s.mem.size →
    decode (encI opcodes.opLoad rd opcodes.f3Lw rs1 imm) = .ok (.lw rd rs1 imm) ∧
    ∃ t, exec (.lw rd rs1 imm) s = .next t ∧
      t.readReg rd = writtenReg rd (wordOfBytes (s.mem.readByte (s.effectiveAddress rs1 imm).toNat)
        (s.mem.readByte ((s.effectiveAddress rs1 imm).toNat + 1)) (s.mem.readByte ((s.effectiveAddress rs1 imm).toNat + 2))
        (s.mem.readByte ((s.effectiveAddress rs1 imm).toNat + 3))) ∧
      SameRegsBut rd s t ∧ t.pc = s.pc + 4 ∧ SameMemory s t

/-- R163: LW outside the memory is LoadOutOfBounds, also for rd = 0; no register is written and the pc is not advanced. The
wrap of the effective address is decision D5, the fault also at misaligned addresses D7, the comparison in unbounded integers
D8 (log entries 5, 7, 8). -/
def Obligations.LwOutOfBoundsFails : Prop :=
  ∀ (rd rs1 : RegIdx) (imm : BitVec 12) (s : State), s.mem.size < (s.effectiveAddress rs1 imm).toNat + 4 →
    exec (.lw rd rs1 imm) s = .fault .loadOutOfBounds ∧
    ∀ (c : OpcodeTable) (resetPc w : Word), s.fetch = some w → decodeWith c w = .ok (.lw rd rs1 imm) →
      serve c resetPc .step s = (s, .error .loadOutOfBounds)

/-- R143: SW completes at every address inside the memory, aligned or not (decision D7, log entry 7): the value's four bytes
stand at the effective address, least significant first; every register and every other byte is as before. -/
def Obligations.SwStoresTheWordInBounds : Prop :=
  ∀ (rs2 rs1 : RegIdx) (imm : BitVec 12) (s : State), (s.effectiveAddress rs1 imm).toNat + 4 ≤ s.mem.size →
    decode (encS opcodes.opStore opcodes.f3Sw rs1 rs2 imm) = .ok (.sw rs2 rs1 imm) ∧
    ∃ t, exec (.sw rs2 rs1 imm) s = .next t ∧
      (∀ k, k < 4 → t.mem.readByte ((s.effectiveAddress rs1 imm).toNat + k) = byteOf (s.readReg rs2) k) ∧
      SameMemoryBut (s.effectiveAddress rs1 imm) s t ∧ SameRegs s t ∧ t.pc = s.pc + 4

/-- R164: SW outside the memory is StoreOutOfBounds; no byte is written and the pc is not advanced. The wrap of the effective
address is decision D5, the fault also at misaligned addresses D7, the comparison in unbounded integers D8 (log entries 5, 7,
8). -/
def Obligations.SwOutOfBoundsFails : Prop :=
  ∀ (rs2 rs1 : RegIdx) (imm : BitVec 12) (s : State), s.mem.size < (s.effectiveAddress rs1 imm).toNat + 4 →
    exec (.sw rs2 rs1 imm) s = .fault .storeOutOfBounds ∧
    ∀ (c : OpcodeTable) (resetPc w : Word), s.fetch = some w → decodeWith c w = .ok (.sw rs2 rs1 imm) →
      serve c resetPc .step s = (s, .error .storeOutOfBounds)

/-- R148: BEQ completes: the pc plus the offset if the registers are equal, else pc + 4; nothing else changes. -/
def Obligations.BeqBranchesWhenEqual : Prop :=
  ∀ (rs1 rs2 : RegIdx) (imm : BitVec 13) (s : State),
    (evenImm imm = true → decode (encB opcodes.opBranch opcodes.f3Beq rs1 rs2 imm) = .ok (.beq rs1 rs2 imm)) ∧
    ∃ t, exec (.beq rs1 rs2 imm) s = .next t ∧
      t.pc = (if s.readReg rs1 = s.readReg rs2 then s.pc + imm.signExtend 32 else s.pc + 4) ∧
      SameRegs s t ∧ SameMemory s t

/-- R149: BNE completes: the pc plus the offset if the registers differ, else pc + 4. -/
def Obligations.BneBranchesWhenNotEqual : Prop :=
  ∀ (rs1 rs2 : RegIdx) (imm : BitVec 13) (s : State),
    (evenImm imm = true → decode (encB opcodes.opBranch opcodes.f3Bne rs1 rs2 imm) = .ok (.bne rs1 rs2 imm)) ∧
    ∃ t, exec (.bne rs1 rs2 imm) s = .next t ∧
      t.pc = (if s.readReg rs1 ≠ s.readReg rs2 then s.pc + imm.signExtend 32 else s.pc + 4) ∧
      SameRegs s t ∧ SameMemory s t

/-- R150, R86: BLT completes: the pc plus the offset if s(a) < s(b), else pc + 4; its funct3 is that of SLT. -/
def Obligations.BltBranchesWhenLessSigned : Prop :=
  opcodes.f3Blt = opcodes.f3Slt ∧
  ∀ (rs1 rs2 : RegIdx) (imm : BitVec 13) (s : State),
    (evenImm imm = true → decode (encB opcodes.opBranch opcodes.f3Blt rs1 rs2 imm) = .ok (.blt rs1 rs2 imm)) ∧
    ∃ t, exec (.blt rs1 rs2 imm) s = .next t ∧
      t.pc = (if (s.readReg rs1).toInt < (s.readReg rs2).toInt then s.pc + imm.signExtend 32 else s.pc + 4) ∧
      SameRegs s t ∧ SameMemory s t

/-- R153: JAL completes: the link value pc + 4 to rd (nowhere for rd = 0), the pc plus the offset. -/
def Obligations.JalLinksAndJumps : Prop :=
  ∀ (rd : RegIdx) (imm : BitVec 21) (s : State),
    (evenImm imm = true → decode (encJ opcodes.opJal rd imm) = .ok (.jal rd imm)) ∧
    ∃ t, exec (.jal rd imm) s = .next t ∧
      t.readReg rd = writtenReg rd (s.pc + 4) ∧ SameRegsBut rd s t ∧ t.pc = s.pc + imm.signExtend 32 ∧ SameMemory s t

/-- R154, R155: JALR completes for every value of the ignored funct3: the target is the OLD register plus the immediate with
bit 0 cleared, also when rd = rs1 (decisions D4, D5, D6; log entries 4, 5, 6), and the link value pc + 4 goes to rd. -/
def Obligations.JalrLinksAndJumpsToTheOldRegister : Prop :=
  ∀ (rd rs1 : RegIdx) (imm : BitVec 12) (funct3 : BitVec 3) (s : State),
    decode (encI opcodes.opJalr rd funct3 rs1 imm) = .ok (.jalr rd rs1 imm funct3) ∧
    ∃ t, exec (.jalr rd rs1 imm funct3) s = .next t ∧
      t.readReg rd = writtenReg rd (s.pc + 4) ∧ SameRegsBut rd s t ∧
      t.pc.toNat = (s.readReg rs1 + imm.signExtend 32).toNat / 2 * 2 ∧ SameMemory s t

/-! ### The assembler -/

/-- R107 to R109: the word the assembler builds, whatever the constants, decodes to the instruction of the line, with the
ignored bits zero; an odd branch or jump offset has lost its bit 0 (90_conflicts.md C1). -/
def Obligations.AssembledWordDecodesToItsLine : Prop :=
  ∀ (c : OpcodeTable) (l : Asm.Line) (w : Word), c.distinct = true → Asm.build c l = .ok w →
    decodeWith c w = .ok l.instr ∧ l.instr.wf = true ∧ l.instr.canonical = true

/-- R108: "immediate out of range" exactly outside the ranges; that of SW is decision D15 (log entry 14). -/
def Obligations.BuilderRangeChecks : Prop :=
  ∀ (c : OpcodeTable) (a b : RegIdx) (x : Int),
    (Asm.build c (.addi a b x) = .error .immediateOutOfRange ↔ x < -2048 ∨ 2047 < x) ∧
    (Asm.build c (.lw a x b) = .error .immediateOutOfRange ↔ x < -2048 ∨ 2047 < x) ∧
    (Asm.build c (.jalr a x b) = .error .immediateOutOfRange ↔ x < -2048 ∨ 2047 < x) ∧
    (Asm.build c (.sw a x b) = .error .immediateOutOfRange ↔ x < -2048 ∨ 2047 < x) ∧
    (Asm.build c (.slli a b x) = .error .immediateOutOfRange ↔ x < 0 ∨ 31 < x) ∧
    (Asm.build c (.beq a b x) = .error .immediateOutOfRange ↔ x < -4096 ∨ 4095 < x) ∧
    (Asm.build c (.bne a b x) = .error .immediateOutOfRange ↔ x < -4096 ∨ 4095 < x) ∧
    (Asm.build c (.blt a b x) = .error .immediateOutOfRange ↔ x < -4096 ∨ 4095 < x) ∧
    (Asm.build c (.jal a x) = .error .immediateOutOfRange ↔ x < -2 ^ 20 ∨ 2 ^ 20 - 1 < x)

/-- R99, R100, R105, R111: when pass 1 accepts a source, every label found on a line has, in the Label Map, the address 4 times
the number of instruction lines before that line, which is where the next instruction line at or after it stands, and in the
instruction at any index it is replaced by that address minus 4 times the index; nothing else is in the map. The instruction
lines are those with a text left, in order, each with its source line number. The last clause is one line, read out. -/
def Obligations.LabelAddressesAreInstructionAddresses : Prop :=
  (∀ (source : List Asm.Text) (p : Asm.Pass1), Asm.pass1 source = .ok p →
    (∀ (k : Nat) (raw name : Asm.Text), source[k]? = some raw → name ∈ Asm.labelsOf raw →
      Asm.labelAddress p.labels name = some (4 * Asm.instructionCount (source.take k)) ∧
      ∀ idx : Nat, Asm.targetOperand p.labels idx name =
        .ok (.offset (4 * (Asm.instructionCount (source.take k) : Int) - 4 * (idx : Int)))) ∧
    (∀ (name : Asm.Text) (address : Nat), Asm.labelAddress p.labels name = some address →
      ∃ (k : Nat) (raw : Asm.Text), source[k]? = some raw ∧ name ∈ Asm.labelsOf raw) ∧
    p.lines.length = Asm.instructionCount source ∧
    (∀ (k : Nat) (raw : Asm.Text), source[k]? = some raw → Asm.instructionText raw ≠ [] →
      p.lines[Asm.instructionCount (source.take k)]? = some (k + 1, Asm.instructionText raw))) ∧
  Asm.labelsOf " a: b: jal x0, b # c: d".toList = ["a".toList, "b".toList] ∧
  Asm.instructionText " a: b: jal x0, b # c: d".toList = "jal x0, b".toList

/-- R97, R100, R112: an assembled unit has one word for each instruction line, and word i is the one of line i. -/
def Obligations.OneWordPerInstructionLine : Prop :=
  ∀ (c : OpcodeTable) (file : Asm.Text) (source : List Asm.Text) (ws : List Word), Asm.assemble c file source = .words ws →
    ∃ p, Asm.pass1 source = .ok p ∧ ws.length = p.lines.length ∧
      ∀ (i : Nat) (src : Nat) (t : Asm.Text), p.lines[i]? = some (src, t) →
        ∃ w, ws[i]? = some w ∧ Asm.assembleLine c p.labels i t = .ok w

/-- R111, R104: the document's label example, whose second immediate is -4, under the default constants (decisions D1, log
entry 1); and one example of the pseudo-instruction: the line `c: j c` assembles as `c: jal x0, c`. -/
def Obligations.LabelExampleAssembles : Prop :=
  Asm.assemble opcodes "a.s".toList ["start: addi x1,x0,1".toList, "beq x1,x0,start".toList] = .words [0x00100093, 0xFE008EE3] ∧
  (immB 0xFE008EE3).toInt = -4 ∧
  Asm.assemble opcodes "a.s".toList ["c: j c".toList] = Asm.assemble opcodes "a.s".toList ["c: jal x0, c".toList]
end

