-- ==== Sys2Proof/Laws/Codec.lean ====
section
/-! SUPPORT. The codec's laws: every field read back from every whole-format encoder, and every word rebuilt from its own
fields (30_encoding.md R66, R80, R81). -/

namespace Sys2Proof.Codec

/-! ### The R format -/

theorem opfield_encR (op : BitVec 7) (d : RegIdx) (f3 : BitVec 3) (a b : RegIdx) (f7 : BitVec 7) :
    opfield (encR op d f3 a b f7) = op := by
  apply BitVec.eq_of_getLsbD_eq
  intro i hi
  simp only [opfield, encR, BitVec.getLsbD_extractLsb', BitVec.getLsbD_append]
  interval_cases i <;> simp

theorem rd_encR (op : BitVec 7) (d : RegIdx) (f3 : BitVec 3) (a b : RegIdx) (f7 : BitVec 7) :
    rd (encR op d f3 a b f7) = d := by
  apply BitVec.eq_of_getLsbD_eq
  intro i hi
  simp only [rd, encR, BitVec.getLsbD_extractLsb', BitVec.getLsbD_append]
  interval_cases i <;> simp

theorem funct3_encR (op : BitVec 7) (d : RegIdx) (f3 : BitVec 3) (a b : RegIdx) (f7 : BitVec 7) :
    funct3 (encR op d f3 a b f7) = f3 := by
  apply BitVec.eq_of_getLsbD_eq
  intro i hi
  simp only [funct3, encR, BitVec.getLsbD_extractLsb', BitVec.getLsbD_append]
  interval_cases i <;> simp

theorem rs1_encR (op : BitVec 7) (d : RegIdx) (f3 : BitVec 3) (a b : RegIdx) (f7 : BitVec 7) :
    rs1 (encR op d f3 a b f7) = a := by
  apply BitVec.eq_of_getLsbD_eq
  intro i hi
  simp only [rs1, encR, BitVec.getLsbD_extractLsb', BitVec.getLsbD_append]
  interval_cases i <;> simp

theorem rs2_encR (op : BitVec 7) (d : RegIdx) (f3 : BitVec 3) (a b : RegIdx) (f7 : BitVec 7) :
    rs2 (encR op d f3 a b f7) = b := by
  apply BitVec.eq_of_getLsbD_eq
  intro i hi
  simp only [rs2, encR, BitVec.getLsbD_extractLsb', BitVec.getLsbD_append]
  interval_cases i <;> simp

theorem funct7_encR (op : BitVec 7) (d : RegIdx) (f3 : BitVec 3) (a b : RegIdx) (f7 : BitVec 7) :
    funct7 (encR op d f3 a b f7) = f7 := by
  apply BitVec.eq_of_getLsbD_eq
  intro i hi
  simp only [funct7, encR, BitVec.getLsbD_extractLsb', BitVec.getLsbD_append]
  interval_cases i <;> simp

/-- A word is the R encoding of its own fields. -/
theorem encR_fields (w : Word) :
    encR (opfield w) (rd w) (funct3 w) (rs1 w) (rs2 w) (funct7 w) = w := by
  apply BitVec.eq_of_getLsbD_eq
  intro i hi
  simp only [encR, opfield, rd, funct3, rs1, rs2, funct7, BitVec.getLsbD_extractLsb', BitVec.getLsbD_append]
  interval_cases i <;> simp

/-! ### The I format -/

theorem opfield_encI (op : BitVec 7) (d : RegIdx) (f3 : BitVec 3) (a : RegIdx) (imm : BitVec 12) :
    opfield (encI op d f3 a imm) = op := by
  apply BitVec.eq_of_getLsbD_eq
  intro i hi
  simp only [opfield, encI, BitVec.getLsbD_extractLsb', BitVec.getLsbD_append]
  interval_cases i <;> simp

theorem rd_encI (op : BitVec 7) (d : RegIdx) (f3 : BitVec 3) (a : RegIdx) (imm : BitVec 12) :
    rd (encI op d f3 a imm) = d := by
  apply BitVec.eq_of_getLsbD_eq
  intro i hi
  simp only [rd, encI, BitVec.getLsbD_extractLsb', BitVec.getLsbD_append]
  interval_cases i <;> simp

theorem funct3_encI (op : BitVec 7) (d : RegIdx) (f3 : BitVec 3) (a : RegIdx) (imm : BitVec 12) :
    funct3 (encI op d f3 a imm) = f3 := by
  apply BitVec.eq_of_getLsbD_eq
  intro i hi
  simp only [funct3, encI, BitVec.getLsbD_extractLsb', BitVec.getLsbD_append]
  interval_cases i <;> simp

theorem rs1_encI (op : BitVec 7) (d : RegIdx) (f3 : BitVec 3) (a : RegIdx) (imm : BitVec 12) :
    rs1 (encI op d f3 a imm) = a := by
  apply BitVec.eq_of_getLsbD_eq
  intro i hi
  simp only [rs1, encI, BitVec.getLsbD_extractLsb', BitVec.getLsbD_append]
  interval_cases i <;> simp

theorem rawI_encI (op : BitVec 7) (d : RegIdx) (f3 : BitVec 3) (a : RegIdx) (imm : BitVec 12) :
    rawI (encI op d f3 a imm) = imm := by
  apply BitVec.eq_of_getLsbD_eq
  intro i hi
  simp only [rawI, encI, BitVec.getLsbD_extractLsb', BitVec.getLsbD_append]
  interval_cases i <;> simp

/-- A word is the I encoding of its own fields. -/
theorem encI_fields (w : Word) :
    encI (opfield w) (rd w) (funct3 w) (rs1 w) (rawI w) = w := by
  apply BitVec.eq_of_getLsbD_eq
  intro i hi
  simp only [encI, opfield, rd, funct3, rs1, rawI, BitVec.getLsbD_extractLsb', BitVec.getLsbD_append]
  interval_cases i <;> simp

/-! ### The S format -/

theorem opfield_encS (op : BitVec 7) (f3 : BitVec 3) (a b : RegIdx) (imm : BitVec 12) :
    opfield (encS op f3 a b imm) = op := by
  apply BitVec.eq_of_getLsbD_eq
  intro i hi
  simp only [opfield, encS, BitVec.getLsbD_extractLsb', BitVec.getLsbD_append]
  interval_cases i <;> simp

theorem funct3_encS (op : BitVec 7) (f3 : BitVec 3) (a b : RegIdx) (imm : BitVec 12) :
    funct3 (encS op f3 a b imm) = f3 := by
  apply BitVec.eq_of_getLsbD_eq
  intro i hi
  simp only [funct3, encS, BitVec.getLsbD_extractLsb', BitVec.getLsbD_append]
  interval_cases i <;> simp

theorem rs1_encS (op : BitVec 7) (f3 : BitVec 3) (a b : RegIdx) (imm : BitVec 12) :
    rs1 (encS op f3 a b imm) = a := by
  apply BitVec.eq_of_getLsbD_eq
  intro i hi
  simp only [rs1, encS, BitVec.getLsbD_extractLsb', BitVec.getLsbD_append]
  interval_cases i <;> simp

theorem rs2_encS (op : BitVec 7) (f3 : BitVec 3) (a b : RegIdx) (imm : BitVec 12) :
    rs2 (encS op f3 a b imm) = b := by
  apply BitVec.eq_of_getLsbD_eq
  intro i hi
  simp only [rs2, encS, BitVec.getLsbD_extractLsb', BitVec.getLsbD_append]
  interval_cases i <;> simp

theorem rawS_encS (op : BitVec 7) (f3 : BitVec 3) (a b : RegIdx) (imm : BitVec 12) :
    rawS (encS op f3 a b imm) = imm := by
  apply BitVec.eq_of_getLsbD_eq
  intro i hi
  simp only [rawS, encS, BitVec.getLsbD_extractLsb', BitVec.getLsbD_append]
  interval_cases i <;> simp

/-- A word is the S encoding of its own fields. -/
theorem encS_fields (w : Word) :
    encS (opfield w) (funct3 w) (rs1 w) (rs2 w) (rawS w) = w := by
  apply BitVec.eq_of_getLsbD_eq
  intro i hi
  simp only [encS, opfield, funct3, rs1, rs2, rawS, BitVec.getLsbD_extractLsb', BitVec.getLsbD_append]
  interval_cases i <;> simp

/-! ### The B format -/

theorem opfield_encB (op : BitVec 7) (f3 : BitVec 3) (a b : RegIdx) (imm : BitVec 13) :
    opfield (encB op f3 a b imm) = op := by
  apply BitVec.eq_of_getLsbD_eq
  intro i hi
  simp only [opfield, encB, BitVec.getLsbD_extractLsb', BitVec.getLsbD_append]
  interval_cases i <;> simp

theorem funct3_encB (op : BitVec 7) (f3 : BitVec 3) (a b : RegIdx) (imm : BitVec 13) :
    funct3 (encB op f3 a b imm) = f3 := by
  apply BitVec.eq_of_getLsbD_eq
  intro i hi
  simp only [funct3, encB, BitVec.getLsbD_extractLsb', BitVec.getLsbD_append]
  interval_cases i <;> simp

theorem rs1_encB (op : BitVec 7) (f3 : BitVec 3) (a b : RegIdx) (imm : BitVec 13) :
    rs1 (encB op f3 a b imm) = a := by
  apply BitVec.eq_of_getLsbD_eq
  intro i hi
  simp only [rs1, encB, BitVec.getLsbD_extractLsb', BitVec.getLsbD_append]
  interval_cases i <;> simp

theorem rs2_encB (op : BitVec 7) (f3 : BitVec 3) (a b : RegIdx) (imm : BitVec 13) :
    rs2 (encB op f3 a b imm) = b := by
  apply BitVec.eq_of_getLsbD_eq
  intro i hi
  simp only [rs2, encB, BitVec.getLsbD_extractLsb', BitVec.getLsbD_append]
  interval_cases i <;> simp

theorem rawB_encB (op : BitVec 7) (f3 : BitVec 3) (a b : RegIdx) (imm : BitVec 13) (h : evenImm imm = true) :
    rawB (encB op f3 a b imm) = imm := by
  apply BitVec.eq_of_getLsbD_eq
  intro i hi
  simp [evenImm] at h
  simp only [rawB, encB, BitVec.getLsbD_extractLsb', BitVec.getLsbD_append]
  interval_cases i <;> simp [h]

/-- A word is the B encoding of its own fields. -/
theorem encB_fields (w : Word) :
    encB (opfield w) (funct3 w) (rs1 w) (rs2 w) (rawB w) = w := by
  apply BitVec.eq_of_getLsbD_eq
  intro i hi
  simp only [encB, opfield, funct3, rs1, rs2, rawB, BitVec.getLsbD_extractLsb', BitVec.getLsbD_append]
  interval_cases i <;> simp

/-! ### The J format -/

theorem opfield_encJ (op : BitVec 7) (d : RegIdx) (imm : BitVec 21) :
    opfield (encJ op d imm) = op := by
  apply BitVec.eq_of_getLsbD_eq
  intro i hi
  simp only [opfield, encJ, BitVec.getLsbD_extractLsb', BitVec.getLsbD_append]
  interval_cases i <;> simp

theorem rd_encJ (op : BitVec 7) (d : RegIdx) (imm : BitVec 21) :
    rd (encJ op d imm) = d := by
  apply BitVec.eq_of_getLsbD_eq
  intro i hi
  simp only [rd, encJ, BitVec.getLsbD_extractLsb', BitVec.getLsbD_append]
  interval_cases i <;> simp

theorem rawJ_encJ (op : BitVec 7) (d : RegIdx) (imm : BitVec 21) (h : evenImm imm = true) :
    rawJ (encJ op d imm) = imm := by
  apply BitVec.eq_of_getLsbD_eq
  intro i hi
  simp [evenImm] at h
  simp only [rawJ, encJ, BitVec.getLsbD_extractLsb', BitVec.getLsbD_append]
  interval_cases i <;> simp [h]

/-- A word is the J encoding of its own fields. -/
theorem encJ_fields (w : Word) :
    encJ (opfield w) (rd w) (rawJ w) = w := by
  apply BitVec.eq_of_getLsbD_eq
  intro i hi
  simp only [encJ, opfield, rd, rawJ, BitVec.getLsbD_extractLsb', BitVec.getLsbD_append]
  interval_cases i <;> simp

/-! ### Parity -/

theorem evenImm_rawB (w : Word) : evenImm (rawB w) = true := by
  simp only [evenImm, rawB, BitVec.getLsbD_append]
  simp

theorem evenImm_rawJ (w : Word) : evenImm (rawJ w) = true := by
  simp only [evenImm, rawJ, BitVec.getLsbD_append]
  simp

end Sys2Proof.Codec
end

