-- ==== Sys2Proof/Laws/Memory.lean ====
section
/-! SUPPORT. The laws of memory: a byte read after a write, words as four bytes, and that every operation keeps the
canonical form. -/

namespace Sys2Proof.Machine

/-! ### Read after write, one byte -/

theorem cellsRead_filter_same (cells : List Host.Cell) (a : Nat) :
    cellsRead (cells.filter (fun c => c.1 != a)) a = Memory.unlisted := by
  induction cells with
  | nil => rfl
  | cons c rest ih =>
    obtain ⟨k, v⟩ := c
    by_cases h : k = a <;> simp_all [cellsRead]

theorem cellsRead_filter_ne (cells : List Host.Cell) (a a' : Nat) (h : a' ≠ a) :
    cellsRead (cells.filter (fun c => c.1 != a)) a' = cellsRead cells a' := by
  induction cells with
  | nil => rfl
  | cons c rest ih =>
    obtain ⟨k, v⟩ := c
    by_cases hk : k = a
    · subst hk
      simp [cellsRead, ih, Ne.symm h]
    · simp [hk, cellsRead, ih]

theorem cellsRead_insert (cells : List Host.Cell) (a a' : Nat) (b : Byte)
    (h : ∀ c ∈ cells, c.1 ≠ a) :
    cellsRead (cellsInsert a b cells) a' = if a' = a then b else cellsRead cells a' := by
  induction cells with
  | nil => by_cases e : a' = a <;> simp [cellsInsert, cellsRead, e, Ne.symm]
  | cons c rest ih =>
    obtain ⟨k, v⟩ := c
    have hk : k ≠ a := h (k, v) (by simp)
    have ih := ih (fun c hc => h c (by simp [hc]))
    unfold cellsInsert
    split
    · by_cases e : a' = a
      · subst e; simp [cellsRead]
      · simp [cellsRead, e, Ne.symm e]
    · by_cases e : a' = a
      · subst e; simp [cellsRead, hk, ih]
      · by_cases e2 : k = a' <;> simp [cellsRead, e, e2, ih]

/-- One byte is written and no other changes, whatever the list of cells. -/
theorem cellsRead_write (cells : List Host.Cell) (a a' : Nat) (b : Byte) :
    cellsRead (cellsWrite cells a b) a' = if a' = a then b else cellsRead cells a' := by
  unfold cellsWrite
  by_cases hb : b = Memory.unlisted
  · by_cases e : a' = a
    · subst e; simp [hb, cellsRead_filter_same]
    · simp [hb, e, cellsRead_filter_ne]
  · rw [if_neg hb, cellsRead_insert _ _ _ _ (by intro c hc; simpa using (List.mem_filter.mp hc).2)]
    by_cases e : a' = a
    · simp [e]
    · simp [e, cellsRead_filter_ne]

@[simp] theorem Memory.writeByte_size (m : Memory) (a : Nat) (b : Byte) : (m.writeByte a b).size = m.size := rfl

theorem Memory.readByte_writeByte (m : Memory) (a a' : Nat) (b : Byte) :
    (m.writeByte a b).readByte a' = if a' = a then b else m.readByte a' :=
  cellsRead_write m.cells a a' b

@[simp] theorem Memory.readByte_zeroed (n a : Nat) : (Memory.zeroed n).readByte a = 0 := rfl

/-! ### Words -/

/-- A write inside the buffer succeeds. -/
theorem Memory.writeWord_admitted (m : Memory) (addr v : Word) (h : m.admits addr) :
    ∃ m', m.writeWord addr v = some m' := by
  simp [Memory.writeWord, h]

theorem Memory.writeWord_rejected (m : Memory) (addr v : Word) (h : ¬ m.admits addr) : m.writeWord addr v = none := by
  simp [Memory.writeWord, h]

theorem Memory.readWord_rejected (m : Memory) (addr : Word) (h : ¬ m.admits addr) : m.readWord addr = none := by
  simp [Memory.readWord, h]

theorem Memory.writeWord_admits {m m' : Memory} {addr v : Word} (h : m.writeWord addr v = some m') : m.admits addr := by
  by_contra hn
  simp [Memory.writeWord_rejected m addr v hn] at h

/-- Everything a successful word write does (20_memory.md R41). -/
theorem Memory.writeWord_spec {m m' : Memory} {addr v : Word} (h : m.writeWord addr v = some m') :
    m'.size = m.size ∧
    (∀ k, k < 4 → m'.readByte (addr.toNat + k) = Codec.byteOf v k) ∧
    (∀ a, a < addr.toNat ∨ addr.toNat + 4 ≤ a → m'.readByte a = m.readByte a) := by
  have hb := Memory.writeWord_admits h
  simp only [Memory.writeWord, hb, if_true, Option.some.injEq] at h
  subst h
  refine ⟨rfl, fun k hk => ?_, fun a ha => ?_⟩
  · simp only [Memory.readByte_writeByte]
    rcases k with _ | _ | _ | _ | k
    · simp
    · simp
    · simp
    · simp
    · omega
  · simp only [Memory.readByte_writeByte]
    rw [if_neg (by omega), if_neg (by omega), if_neg (by omega), if_neg (by omega)]

theorem Codec.wordOfBytes_byteOf (w : Word) :
    Codec.wordOfBytes (Codec.byteOf w 0) (Codec.byteOf w 1) (Codec.byteOf w 2) (Codec.byteOf w 3) = w := by
  apply BitVec.eq_of_getLsbD_eq
  intro i hi
  simp only [Codec.wordOfBytes, Codec.byteOf, BitVec.getLsbD_append, BitVec.getLsbD_extractLsb']
  split
  · simp [*]
  · split
    · simp; grind
    · split
      · simp; grind
      · simp; grind

/-- A word read where a word was just written gives that word. -/
theorem Memory.readWord_writeWord_same {m m' : Memory} {addr v : Word} (h : m.writeWord addr v = some m') :
    m'.readWord addr = some v := by
  have hb := Memory.writeWord_admits h
  obtain ⟨hs, hw, -⟩ := Memory.writeWord_spec h
  have h0 := hw 0 (by omega)
  simp only [Nat.add_zero] at h0
  simp only [Memory.readWord, Memory.admits, hs, show addr.toNat + 4 ≤ m.size from hb, if_true, h0,
    hw 1 (by omega), hw 2 (by omega), hw 3 (by omega), Codec.wordOfBytes_byteOf]

/-- A word read that does not overlap the word written gives what it gave before. -/
theorem Memory.readWord_writeWord_disjoint {m m' : Memory} {addr addr' v : Word} (h : m.writeWord addr v = some m')
    (hd : addr'.toNat + 4 ≤ addr.toNat ∨ addr.toNat + 4 ≤ addr'.toNat) : m'.readWord addr' = m.readWord addr' := by
  obtain ⟨hs, -, hf⟩ := Memory.writeWord_spec h
  simp only [Memory.readWord, Memory.admits, hs]
  rw [hf _ (by omega), hf _ (by omega), hf _ (by omega), hf _ (by omega)]

/-! ### The canonical form is kept -/

theorem cellsRiseAbove_weaken {lo lo' : Nat} (h : lo' ≤ lo) :
    ∀ {cells : List Host.Cell}, cellsRiseAbove lo cells = true → cellsRiseAbove lo' cells = true
  | [], _ => rfl
  | (k, v) :: rest, hc => by
    simp only [cellsRiseAbove, Bool.and_eq_true, decide_eq_true_eq] at hc ⊢
    exact ⟨by omega, hc.2⟩

theorem cellsRiseAbove_filter (p : Host.Cell → Bool) :
    ∀ {lo : Nat} {cells : List Host.Cell}, cellsRiseAbove lo cells = true → cellsRiseAbove lo (cells.filter p) = true
  | _, [], _ => rfl
  | lo, (k, v) :: rest, h => by
    simp only [cellsRiseAbove, Bool.and_eq_true, decide_eq_true_eq] at h
    have ih := cellsRiseAbove_filter p h.2
    by_cases hp : p (k, v) = true
    · simp only [List.filter_cons, hp, if_true, cellsRiseAbove, Bool.and_eq_true, decide_eq_true_eq]
      exact ⟨h.1, ih⟩
    · simp only [List.filter_cons, hp]
      exact cellsRiseAbove_weaken (by omega) ih

theorem cellsRiseAbove_insert (a : Nat) (b : Byte) :
    ∀ {lo : Nat} {cells : List Host.Cell}, lo ≤ a → (∀ c ∈ cells, c.1 ≠ a) → cellsRiseAbove lo cells = true →
      cellsRiseAbove lo (cellsInsert a b cells) = true
  | lo, [], hlo, _, _ => by simp [cellsInsert, cellsRiseAbove, hlo]
  | lo, (k, v) :: rest, hlo, hne, h => by
    have hk : k ≠ a := hne (k, v) (by simp)
    simp only [cellsRiseAbove, Bool.and_eq_true, decide_eq_true_eq] at h
    unfold cellsInsert
    split
    · simp only [cellsRiseAbove, Bool.and_eq_true, decide_eq_true_eq]
      exact ⟨hlo, by omega, h.2⟩
    · simp only [cellsRiseAbove, Bool.and_eq_true, decide_eq_true_eq]
      exact ⟨h.1, cellsRiseAbove_insert a b (by omega) (fun c hc => hne c (by simp [hc])) h.2⟩

theorem mem_cellsInsert {a : Nat} {b : Byte} {c : Host.Cell} :
    ∀ {cells : List Host.Cell}, c ∈ cellsInsert a b cells → c = (a, b) ∨ c ∈ cells
  | [], h => by simpa [cellsInsert] using h
  | (k, v) :: rest, h => by
    unfold cellsInsert at h
    split at h
    · simpa using h
    · rcases List.mem_cons.mp h with h | h
      · simp [h]
      · rcases mem_cellsInsert h with h | h <;> simp [h]

theorem Memory.wf_writeByte {m : Memory} {a : Nat} {b : Byte} (h : m.wf = true) (ha : a < m.size) :
    (m.writeByte a b).wf = true := by
  simp only [Memory.wf, Bool.and_eq_true, List.all_eq_true, decide_eq_true_eq] at h ⊢
  obtain ⟨⟨hr, hc⟩, hs⟩ := h
  refine ⟨⟨?_, fun c hmem => ?_⟩, hs⟩
  · simp only [Memory.writeByte, cellsWrite]
    split
    · exact cellsRiseAbove_filter _ hr
    · exact cellsRiseAbove_insert a b (by omega) (by intro c hc; simpa using (List.mem_filter.mp hc).2)
        (cellsRiseAbove_filter _ hr)
  · simp only [Memory.writeByte, cellsWrite] at hmem
    split at hmem
    · exact hc c (List.mem_filter.mp hmem).1
    · rename_i hb
      rcases mem_cellsInsert hmem with h | h
      · subst h; exact ⟨by simpa using hb, ha⟩
      · exact hc c (List.mem_filter.mp h).1

/-- Every memory operation keeps the canonical form: the word write does. -/
theorem Memory.wf_writeWord {m m' : Memory} {addr v : Word} (h : m.wf = true) (hw : m.writeWord addr v = some m') :
    m'.wf = true := by
  have hb := Memory.writeWord_admits hw
  simp only [Memory.writeWord, hb, if_true, Option.some.injEq] at hw
  subst hw
  have hb : addr.toNat + 4 ≤ m.size := hb
  have h0 := Memory.wf_writeByte (a := addr.toNat) (b := Codec.byteOf v 0) h (by omega)
  have h1 := Memory.wf_writeByte (a := addr.toNat + 1) (b := Codec.byteOf v 1) h0 (by simp only [Memory.writeByte_size]; omega)
  have h2 := Memory.wf_writeByte (a := addr.toNat + 2) (b := Codec.byteOf v 2) h1 (by simp only [Memory.writeByte_size]; omega)
  exact Memory.wf_writeByte h2 (by simp only [Memory.writeByte_size]; omega)

theorem Memory.wf_zeroed {n : Nat} (h : n ≤ Config.maxMemSize) : (Memory.zeroed n).wf = true := by
  simp [Memory.wf, Memory.zeroed, cellsRiseAbove, h]

/-- The reset memory has the canonical form. -/
theorem Memory.wf_reset : State.reset.mem.wf = true := by decide

end Sys2Proof.Machine
end

