-- ==== Sys2Proof/Laws/PerInstr.lean ====
section
/-! SUPPORT. Statements made for every instruction, one lemma per constructor. Family EncodedClass: under any constants that
meet the document's constraints, the encoding of an instruction has that instruction's opcode class (30_encoding.md R82,
R87). -/

namespace Sys2Proof.Codec

/-! ### The class of a word whose opcode field is one of the seven constants -/

theorem opclassWith_rType (t : OpcodeTable) (w : Word) (_ht : t.distinct = true) (h : opfield w = t.opRType) :
    opclassWith t w = .rType := by
  simp only [opclassWith, h, if_true]

theorem opclassWith_iType (t : OpcodeTable) (w : Word) (ht : t.distinct = true) (h : opfield w = t.opIType) :
    opclassWith t w = .iType := by
  simp [OpcodeTable.distinct] at ht
  simp only [opclassWith, h]
  grind

theorem opclassWith_load (t : OpcodeTable) (w : Word) (ht : t.distinct = true) (h : opfield w = t.opLoad) :
    opclassWith t w = .load := by
  simp [OpcodeTable.distinct] at ht
  simp only [opclassWith, h]
  grind

theorem opclassWith_store (t : OpcodeTable) (w : Word) (ht : t.distinct = true) (h : opfield w = t.opStore) :
    opclassWith t w = .store := by
  simp [OpcodeTable.distinct] at ht
  simp only [opclassWith, h]
  grind

theorem opclassWith_branch (t : OpcodeTable) (w : Word) (ht : t.distinct = true) (h : opfield w = t.opBranch) :
    opclassWith t w = .branch := by
  simp [OpcodeTable.distinct] at ht
  simp only [opclassWith, h]
  grind

theorem opclassWith_jal (t : OpcodeTable) (w : Word) (ht : t.distinct = true) (h : opfield w = t.opJal) :
    opclassWith t w = .jal := by
  simp [OpcodeTable.distinct] at ht
  simp only [opclassWith, h]
  grind

theorem opclassWith_jalr (t : OpcodeTable) (w : Word) (ht : t.distinct = true) (h : opfield w = t.opJalr) :
    opclassWith t w = .jalr := by
  simp [OpcodeTable.distinct] at ht
  simp only [opclassWith, h]
  grind

end Sys2Proof.Codec

namespace Sys2Proof.Laws.EncodedClass

/-- The encoding of the instruction has the instruction's opcode class. -/
def Statement (i : Instr) : Prop :=
  ∀ t : OpcodeTable, t.distinct = true → Codec.opclassWith t (encodeWith t i) = i.opClass

theorem add (rd : RegIdx) (rs1 : RegIdx) (rs2 : RegIdx) : Statement (.add rd rs1 rs2) :=
  fun t ht => Codec.opclassWith_rType t _ ht (Codec.opfield_encR ..)

theorem sub (rd : RegIdx) (rs1 : RegIdx) (rs2 : RegIdx) : Statement (.sub rd rs1 rs2) :=
  fun t ht => Codec.opclassWith_rType t _ ht (Codec.opfield_encR ..)

theorem slt (rd : RegIdx) (rs1 : RegIdx) (rs2 : RegIdx) (funct7 : BitVec 7) : Statement (.slt rd rs1 rs2 funct7) :=
  fun t ht => Codec.opclassWith_rType t _ ht (Codec.opfield_encR ..)

theorem addi (rd : RegIdx) (rs1 : RegIdx) (imm : BitVec 12) : Statement (.addi rd rs1 imm) :=
  fun t ht => Codec.opclassWith_iType t _ ht (Codec.opfield_encI ..)

theorem slli (rd : RegIdx) (rs1 : RegIdx) (imm : BitVec 12) : Statement (.slli rd rs1 imm) :=
  fun t ht => Codec.opclassWith_iType t _ ht (Codec.opfield_encI ..)

theorem lw (rd : RegIdx) (rs1 : RegIdx) (imm : BitVec 12) : Statement (.lw rd rs1 imm) :=
  fun t ht => Codec.opclassWith_load t _ ht (Codec.opfield_encI ..)

theorem sw (rs2 : RegIdx) (rs1 : RegIdx) (imm : BitVec 12) : Statement (.sw rs2 rs1 imm) :=
  fun t ht => Codec.opclassWith_store t _ ht (Codec.opfield_encS ..)

theorem beq (rs1 : RegIdx) (rs2 : RegIdx) (imm : BitVec 13) : Statement (.beq rs1 rs2 imm) :=
  fun t ht => Codec.opclassWith_branch t _ ht (Codec.opfield_encB ..)

theorem bne (rs1 : RegIdx) (rs2 : RegIdx) (imm : BitVec 13) : Statement (.bne rs1 rs2 imm) :=
  fun t ht => Codec.opclassWith_branch t _ ht (Codec.opfield_encB ..)

theorem blt (rs1 : RegIdx) (rs2 : RegIdx) (imm : BitVec 13) : Statement (.blt rs1 rs2 imm) :=
  fun t ht => Codec.opclassWith_branch t _ ht (Codec.opfield_encB ..)

theorem jal (rd : RegIdx) (imm : BitVec 21) : Statement (.jal rd imm) :=
  fun t ht => Codec.opclassWith_jal t _ ht (Codec.opfield_encJ ..)

theorem jalr (rd : RegIdx) (rs1 : RegIdx) (imm : BitVec 12) (funct3 : BitVec 3) : Statement (.jalr rd rs1 imm funct3) :=
  fun t ht => Codec.opclassWith_jalr t _ ht (Codec.opfield_encI ..)

end Sys2Proof.Laws.EncodedClass
end

