-- ==== Sys2Proof/Laws/State.lean ====
section
/-! SUPPORT. One lemma per field per update of the state, and the laws of the register file: no later proof unfolds a record
update or `readReg`. -/

namespace Sys2Proof.Machine

/-! ### setPc, advance -/

@[simp] theorem State.setPc_pc (s : State) (t : Word) : (s.setPc t).pc = t := rfl
@[simp] theorem State.setPc_mem (s : State) (t : Word) : (s.setPc t).mem = s.mem := rfl
@[simp] theorem State.setPc_regs (s : State) (t : Word) : (s.setPc t).regs = s.regs := rfl
@[simp] theorem State.setPc_readReg (s : State) (t : Word) (r : RegIdx) : (s.setPc t).readReg r = s.readReg r := rfl
@[simp] theorem State.advance_pc (s : State) : s.advance.pc = s.pc + instrSize := rfl
@[simp] theorem State.advance_mem (s : State) : s.advance.mem = s.mem := rfl
@[simp] theorem State.advance_readReg (s : State) (r : RegIdx) : s.advance.readReg r = s.readReg r := rfl

/-! ### writeReg -/

@[simp] theorem State.writeReg_pc (s : State) (i : RegIdx) (v : Word) : (s.writeReg i v).pc = s.pc := by
  unfold State.writeReg; split <;> rfl

@[simp] theorem State.writeReg_mem (s : State) (i : RegIdx) (v : Word) : (s.writeReg i v).mem = s.mem := by
  unfold State.writeReg; split <;> rfl

/-- Register 0 reads 0 (10_state.md R14). -/
@[simp] theorem State.readReg_zero (s : State) : s.readReg 0#5 = 0#32 := rfl

/-- Writes to register 0 are discarded (R15). -/
@[simp] theorem State.writeReg_zero (s : State) (v : Word) : s.writeReg 0#5 v = s := rfl

/-- A nonzero register reads what was written to it. -/
theorem State.readReg_writeReg_same (s : State) (i : RegIdx) (v : Word) (h : i ≠ 0) :
    (s.writeReg i v).readReg i = v := by
  simp only [State.writeReg, State.readReg, h, if_false]
  exact Vector.getElem_set_self _

/-- A write leaves every other register alone. -/
theorem State.readReg_writeReg_ne (s : State) (i j : RegIdx) (v : Word) (h : j ≠ i) :
    (s.writeReg i v).readReg j = s.readReg j := by
  by_cases hi : i = 0
  · subst hi; rfl
  by_cases hj : j = 0
  · subst hj; rfl
  have hi' : i.toNat ≠ 0 := fun e => hi (BitVec.eq_of_toNat_eq (by simpa using e))
  have hj' : j.toNat ≠ 0 := fun e => hj (BitVec.eq_of_toNat_eq (by simpa using e))
  have hne : i.toNat ≠ j.toNat := fun e => h (BitVec.eq_of_toNat_eq e.symm)
  simp only [State.writeReg, State.readReg, hi, hj, if_false]
  exact Vector.getElem_set_ne _ _ (by omega)

/-! ### writeBack, linkAndJump, branchIf: everything they can do -/

@[simp] theorem State.writeBack_pc (s : State) (rd : RegIdx) (v : Word) : (s.writeBack rd v).pc = s.pc + instrSize := by
  simp [State.writeBack]

@[simp] theorem State.writeBack_mem (s : State) (rd : RegIdx) (v : Word) : (s.writeBack rd v).mem = s.mem := by
  simp [State.writeBack]

@[simp] theorem State.writeBack_readReg (s : State) (rd r : RegIdx) (v : Word) :
    (s.writeBack rd v).readReg r = (s.writeReg rd v).readReg r := rfl

@[simp] theorem State.linkAndJump_pc (s : State) (rd : RegIdx) (t : Word) : (s.linkAndJump rd t).pc = t := rfl

@[simp] theorem State.linkAndJump_mem (s : State) (rd : RegIdx) (t : Word) : (s.linkAndJump rd t).mem = s.mem := by
  simp [State.linkAndJump]

@[simp] theorem State.linkAndJump_readReg (s : State) (rd r : RegIdx) (t : Word) :
    (s.linkAndJump rd t).readReg r = (s.writeReg rd (s.pc + instrSize)).readReg r := rfl

@[simp] theorem State.branchIf_mem (s : State) (c : Bool) (imm : BitVec 13) : (s.branchIf c imm).mem = s.mem := by
  cases c <;> rfl

@[simp] theorem State.branchIf_readReg (s : State) (c : Bool) (imm : BitVec 13) (r : RegIdx) :
    (s.branchIf c imm).readReg r = s.readReg r := by
  cases c <;> rfl

theorem State.branchIf_pc (s : State) (c : Bool) (imm : BitVec 13) :
    (s.branchIf c imm).pc = if c then s.pc + immValue imm else s.pc + instrSize := by
  cases c <;> rfl

end Sys2Proof.Machine
end

