-- ==== Sys2Proof/Laws/Step.lean ====
section
/-! SUPPORT. What a step can do, said once: it fetches, decodes and runs one instruction, and every next state is one of a
register write-back, a store, a branch or a jump. -/

namespace Sys2Proof.Machine

/-- A step that goes on has fetched a word, decoded it and run it (40_step_cycle.md R118 to R121). -/
theorem stepWith_next_cases {c : OpcodeTable} {s t : State} (h : stepWith c s = .next t) :
    ∃ w i, s.fetch = some w ∧ decodeWith c w = .ok i ∧ exec i s = .next t := by
  unfold stepWith raise at h
  cases hf : s.fetch with
  | none => simp [hf] at h
  | some w =>
    cases hd : decodeWith c w with
    | ok i => exact ⟨w, i, rfl, hd, by simpa [hf, hd] using h⟩
    | invalidOpcode => simp [hf, hd] at h
    | unimplemented => simp [hf, hd] at h

/-- A step at a decoded instruction is that instruction's meaning. -/
theorem stepWith_of_decode {c : OpcodeTable} {s : State} {w : Word} {i : Instr} (hf : s.fetch = some w)
    (hd : decodeWith c w = .ok i) : stepWith c s = exec i s := by
  simp [stepWith, hf, hd]

/-- The host's machine is the one with the default values of the parameters. -/
theorem core_eq_machineWith : core = machineWith opcodes Config.memSize Config.resetPc := rfl

/-- LW that goes on has read the word it writes back. -/
theorem execLw_next {rd rs1 : RegIdx} {imm : BitVec 12} {s t : State} (h : execLw rd rs1 imm s = .next t) :
    ∃ v, s.mem.readWord (s.effectiveAddress rs1 imm) = some v ∧ t = s.writeBack rd v := by
  unfold execLw raise at h
  cases hr : s.mem.readWord (s.effectiveAddress rs1 imm) with
  | none => simp [hr] at h
  | some v => exact ⟨v, rfl, by simpa [hr] using h.symm⟩

/-- SW that goes on has written the word. -/
theorem execSw_next {rs2 rs1 : RegIdx} {imm : BitVec 12} {s t : State} (h : execSw rs2 rs1 imm s = .next t) :
    ∃ m, s.mem.writeWord (s.effectiveAddress rs1 imm) (s.readReg rs2) = some m ∧
      t = ({ s with mem := m } : State).advance := by
  unfold execSw raise at h
  cases hr : s.mem.writeWord (s.effectiveAddress rs1 imm) (s.readReg rs2) with
  | none => simp [hr] at h
  | some m => exact ⟨m, rfl, by simpa [hr] using h.symm⟩

/-- A next state's memory is the old one, or the old one with one word stored by SW. -/
theorem exec_next_mem {i : Instr} {s t : State} (h : exec i s = .next t) :
    t.mem = s.mem ∨ ∃ addr v, s.mem.writeWord addr v = some t.mem := by
  cases i with
  | sw rs2 rs1 imm =>
    obtain ⟨m, hm, rfl⟩ := execSw_next h
    exact .inr ⟨_, _, hm⟩
  | lw rd rs1 imm =>
    obtain ⟨v, -, rfl⟩ := execLw_next h
    exact .inl (State.writeBack_mem ..)
  | add | sub | slt | addi | slli =>
    injection h with h
    subst h
    exact .inl (State.writeBack_mem ..)
  | beq | bne | blt =>
    injection h with h
    subst h
    exact .inl (State.branchIf_mem ..)
  | jal | jalr =>
    injection h with h
    subst h
    exact .inl (State.linkAndJump_mem ..)

/-- No instruction is refused: every arm of the dispatch has its meaning. -/
theorem exec_not_refused (i : Instr) (s : State) (r : Refusal) : exec i s ≠ .refused r := by
  cases i with
  | lw rd rs1 imm =>
    show execLw rd rs1 imm s ≠ _
    unfold execLw raise
    split <;> simp
  | sw rs2 rs1 imm =>
    show execSw rs2 rs1 imm s ≠ _
    unfold execSw raise
    split <;> simp
  | add | sub | slt | addi | slli | beq | bne | blt | jal | jalr => intro h; injection h

/-- A successful STEP request is a next state. -/
theorem stepRequest_of_next {c : OpcodeTable} {s t : State} (h : stepWith c s = .next t) : stepRequest c s = (t, .ok) := by
  simp [stepRequest, h]

end Sys2Proof.Machine
end

