-- ==== Sys2Proof/Tests/Slice0.lean ====
section
/-! SUPPORT. The session's own tests: expected values are the spec's (95_test_vectors.md, the vector named in each docstring),
and the witnesses that meet the hypotheses of the obligations. Each test is one decode, one request or one step. -/

namespace Sys2Proof.Tests

open Sys2Proof Sys2Proof.Machine Sys2Proof.Codec

/-! ### Helpers -/

/-- `s` with a word in memory; `s` itself where it does not fit. -/
def putWord (s : State) (addr w : Word) : State :=
  match s.mem.writeWord addr w with
  | some m => { s with mem := m }
  | none => s

/-- The common start of the vectors: 1024 bytes, registers 0, the word `w` at the pc. -/
def fetching (pc w : Word) : State := putWord ((State.construct 1024 0).setPc pc) pc w

/-- The outcome is a next state with the property. -/
def nextIs (o : Host.Outcome State Fault Refusal) (p : State → Bool) : Bool :=
  match o with
  | .next t => p t
  | .fault _ => false
  | .refused _ => false

/-- The outcome is this fault. -/
def faultIs (o : Host.Outcome State Fault Refusal) (f : Fault) : Bool :=
  match o with
  | .next _ => false
  | .fault g => decide (g = f)
  | .refused _ => false

theorem exists_next {o : Host.Outcome State Fault Refusal} (h : nextIs o (fun _ => true) = true) : ∃ t, o = .next t := by
  cases o with
  | next t => exact ⟨t, rfl⟩
  | fault f => simp [nextIs] at h
  | refused r => simp [nextIs] at h

theorem eq_fault {o : Host.Outcome State Fault Refusal} {f : Fault} (h : faultIs o f = true) : o = .fault f := by
  cases o with
  | next t => simp [faultIs] at h
  | fault g => simp [faultIs] at h; rw [h]
  | refused r => simp [faultIs] at h

/-! ### WellFormed: an ill-formed term for each check (R71, R72), and the extremes the checks accept -/

theorem test_wf_beq_odd : (Instr.beq 1 2 9).wf = false := by decide
theorem test_wf_bne_odd : (Instr.bne 1 2 4095).wf = false := by decide
theorem test_wf_blt_odd : (Instr.blt 1 2 (-1)).wf = false := by decide
theorem test_wf_jal_odd : (Instr.jal 1 1048575).wf = false := by decide
theorem test_wf_even : ((Instr.beq 0 0 4094).wf && (Instr.bne 1 0 (-8)).wf && (Instr.blt 1 2 (-4096)).wf &&
    (Instr.jal 1 1048574).wf) = true := by decide

/-! ### Decode: words written out bit by bit from the spec's encodings (section 2.7) -/

theorem test_decode_add : decode 0b0000000_11101_11110_000_11111_0110011 = .ok (.add 31 30 29) := by decide
theorem test_decode_sub : decode 0b0100000_00010_00001_000_00011_0110011 = .ok (.sub 3 1 2) := by decide
theorem test_decode_slt : decode 0b0000000_00010_00001_010_00011_0110011 = .ok (.slt 3 1 2 0) := by decide
theorem test_decode_addi : decode 0b011111111111_00001_000_00010_0010011 = .ok (.addi 2 1 2047) := by decide
theorem test_decode_slli : decode 0b000000011111_00001_001_00010_0010011 = .ok (.slli 2 1 31) := by decide
theorem test_decode_lw : decode 0b111111111100_00010_010_00011_0000011 = .ok (.lw 3 2 (-4)) := by decide
theorem test_decode_sw : decode 0b0111111_00001_00010_010_11111_0100011 = .ok (.sw 1 2 2047) := by decide
theorem test_decode_beq : decode 0b0_111111_00000_00000_000_1111_1_1100011 = .ok (.beq 0 0 4094) := by decide
theorem test_decode_bne : decode 0b0_000000_00010_00001_001_0100_0_1100011 = .ok (.bne 1 2 8) := by decide
theorem test_decode_blt : decode 0b1_111111_00010_00001_010_1100_1_1100011 = .ok (.blt 1 2 (-8)) := by decide
theorem test_decode_jal : decode 0b0_0000000000_0_00000001_00101_1101111 = .ok (.jal 5 4096) := by decide
theorem test_decode_jalr : decode 0b111111111111_00010_000_00001_1100111 = .ok (.jalr 1 2 (-1) 0) := by decide

/-- The encoder gives the words of section 2.7. -/
theorem test_encode : [Instr.add 3 1 2, .sub 3 1 2, .slt 3 1 2 0, .addi 2 1 (-2048), .slli 2 1 31, .lw 3 2 (-4)].map encode =
    [0x002081B3, 0x402081B3, 0x0020A1B3, 0x80008113, 0x01F09113, 0xFFC12183] := by decide
theorem test_encode_split : [Instr.sw 1 2 (-4), .beq 1 2 8, .bne 1 2 8, .blt 1 2 (-8), .jal 0 (-8), .jalr 1 2 (-1) 0].map
    encode = [0xFE112E23, 0x00208463, 0x00209463, 0xFE20ACE3, 0xFF9FF06F, 0xFFF100E7] := by decide

/-- Ignored bits do not change the instruction: vectors A18, I14, J14. -/
theorem test_decode_ignored_bits : decode 0x4020A1B3 = .ok (.slt 3 1 2 0b0100000) ∧
    decode 0x40409113 = .ok (.slli 2 1 0x404) ∧ decode 0x00417367 = .ok (.jalr 6 2 4 0b111) := by decide

/-- Valid class, unlisted funct3 or funct7: vectors A20, A21, I15, M20, M21, B15. -/
theorem test_decode_unimplemented : [0x0020C1B3, 0x022081B3, 0x00F0F193, 0x00010183, 0x00110023, 0x0020C463].map decode =
    List.replicate 6 .unimplemented := by decide

/-- No class: vectors E1 to E6, E13, E14. -/
theorem test_decode_invalid : [0x00000000, 0xFFFFFFFF, 0x69646461, 0x000010B7, 0x00000073, 0x0FF0000F, 0x00000001,
    0x00000017].map decode = List.replicate 8 .invalidOpcode := by decide

/-- Section 2.1, the rows of 0xFE008EE3 and 0xDEADBEEF: all accessors at once. -/
theorem test_demux_branch : demux opcodes 0xFE008EE3 = ⟨.branch, 29, 0, 1, 0, 0b1111111, -32, -3, -4, -1013792⟩ := by decide
theorem test_demux_jal : demux opcodes 0xDEADBEEF = ⟨.jal, 29, 0b011, 27, 10, 0b1101111, -534, -515, -516, -150038⟩ := by decide

/-- Section 2.3: each mutator on (0xFFFFFFFF, 0). -/
theorem test_mutators_clear : [setOpcode 0xFFFFFFFF 0, setRd 0xFFFFFFFF 0, setFunct3 0xFFFFFFFF 0, setRs1 0xFFFFFFFF 0,
    setRs2 0xFFFFFFFF 0, setFunct7 0xFFFFFFFF 0, setImmI 0xFFFFFFFF 0, setImmS 0xFFFFFFFF 0, setImmB 0xFFFFFFFF 0,
    setImmJ 0xFFFFFFFF 0] = [0xFFFFFF80, 0xFFFFF07F, 0xFFFF8FFF, 0xFFF07FFF, 0xFE0FFFFF, 0x01FFFFFF, 0x000FFFFF, 0x01FFF07F,
    0x01FFF07F, 0x00000FFF] := by decide

/-- Section 2.2: single bits of the scrambled immediates. -/
theorem test_scramble : [setImmS 0 1, setImmS 0 32, setImmB 0 2, setImmB 0 32, setImmB 0 2048, setImmB 0 (-4096), setImmJ 0 2,
    setImmJ 0 2048, setImmJ 0 4096, setImmJ 0 524288] = [0x80, 0x02000000, 0x100, 0x02000000, 0x80, 0x80000000, 0x00200000,
    0x00100000, 0x1000, 0x00080000] := by decide

/-- Section 2.4: bit 0 of an odd B or J value is lost, and a wide value is cut off at the port. -/
theorem test_odd_and_wide : [setImmB 0 4095, setImmJ 0 1048575, setImmI 0 (BitVec.ofInt 12 (-2049)), setRd 0 (BitVec.ofNat 5 35)] =
    [0x7E000F80, 0x7FFFF000, 0x7FF00000, 0x180] := by decide

/-! ### The interface's two functions -/

theorem test_decodeTableWord : decodeTableWord 32 0x402081B3 = some (.sub 3 1 2) ∧ decodeTableWord 32 0x0000006F =
    some (.jal 0 0) ∧ decodeTableWord 32 0 = none := by decide

/-- The first step after reset runs the stored word: `addi x1, x0, -1`, vector I1. -/
theorem test_withFetchWord : nextIs (step (State.reset.withFetchWord 32 0xFFF00093))
    (fun t => t.readReg 1 == 0xFFFFFFFF && t.pc == 4) = true := by decide

/-! ### One step of every instruction -/

/-- A2. -/
theorem test_add_wraps : nextIs (step (((fetching 0 0x002081B3).writeReg 1 0xFFFFFFFF).writeReg 2 1 |>.writeReg 3 9))
    (fun t => t.readReg 3 == 0 && t.pc == 4) = true := by decide
/-- A6. -/
theorem test_add_x0 : nextIs (step (((fetching 0 0x00208033).writeReg 1 5).writeReg 2 7))
    (fun t => t.readReg 0 == 0 && t.pc == 4) = true := by decide
/-- A8. -/
theorem test_sub_borrows : nextIs (step ((fetching 0 0x402081B3).writeReg 2 1))
    (fun t => t.readReg 3 == 0xFFFFFFFF && t.pc == 4) = true := by decide
/-- A12. -/
theorem test_sub_order : nextIs (step (((fetching 0 0x402081B3).writeReg 1 7).writeReg 2 5))
    (fun t => t.readReg 3 == 2) = true := by decide
/-- A15. -/
theorem test_slt_extremes : nextIs (step (((fetching 0 0x0020A1B3).writeReg 1 0x80000000).writeReg 2 0x7FFFFFFF))
    (fun t => t.readReg 3 == 1 && t.pc == 4) = true := by decide
/-- A19: funct7 is ignored. -/
theorem test_slt_funct7 : nextIs (step (((fetching 0 0xFE20A1B3).writeReg 1 2).writeReg 2 3))
    (fun t => t.readReg 3 == 1 && t.pc == 4) = true := by decide
/-- I2. -/
theorem test_addi_lowest : nextIs (step (((fetching 0 0x80008113).writeReg 1 0x800).writeReg 2 9))
    (fun t => t.readReg 2 == 0 && t.pc == 4) = true := by decide
/-- I6: rd = rs1. -/
theorem test_addi_in_place : nextIs (step ((fetching 0 0x00108093).writeReg 1 0x29)) (fun t => t.readReg 1 == 0x2A) = true := by
  decide
/-- I11. -/
theorem test_slli_by_31 : nextIs (step ((fetching 0 0x01F09113).writeReg 1 3))
    (fun t => t.readReg 2 == 0x80000000 && t.pc == 4) = true := by decide
/-- I13: immediate field 0xFE1 shifts by 1. -/
theorem test_slli_low_bits : nextIs (step ((fetching 0 0xFE109113).writeReg 1 3)) (fun t => t.readReg 2 == 6) = true := by
  decide
/-- M6: misaligned; bytes 100 to 107 are 00 00 44 33 22 11 00 00. -/
theorem test_lw_misaligned : nextIs
    (step ((putWord (putWord (fetching 0 0x00112183) 100 0x33440000) 104 0x00001122).writeReg 2 0x64))
    (fun t => t.readReg 3 == 0x22334400 && t.pc == 4) = true := by decide
/-- M26: the effective address wraps to 0. -/
theorem test_lw_ea_wraps : nextIs (step ((putWord (fetching 16 0x00112183) 0 0x0A0B0C0D).writeReg 2 0xFFFFFFFF))
    (fun t => t.readReg 3 == 0x0A0B0C0D && t.pc == 20) = true := by decide
/-- M3: negative offset, byte order. -/
theorem test_sw_byte_order : nextIs (step (((fetching 0 0xFE112E23).writeReg 1 0x11223344).writeReg 2 0x68))
    (fun t => t.mem.readByte 100 == 0x44 && t.mem.readByte 103 == 0x11 && t.pc == 4) = true := by decide
/-- M23: a store onto its own word completes; the word is seen afterwards. -/
theorem test_sw_onto_itself : nextIs (step (((fetching 16 0x00112023).writeReg 1 0x13).writeReg 2 0x10))
    (fun t => t.mem.readWord 16 == some 0x13 && t.pc == 20) = true := by decide
/-- B1 and B2: the source's own example S4. -/
theorem test_beq_taken : nextIs (step (((fetching 100 0x00208463).writeReg 1 7).writeReg 2 7)) (fun t => t.pc == 108) = true := by
  decide
theorem test_beq_not_taken : nextIs (step (((fetching 100 0x00208463).writeReg 1 7).writeReg 2 8)) (fun t => t.pc == 104) =
    true := by decide
/-- B19: backward. -/
theorem test_bne_taken : nextIs (step ((fetching 16 0xFE009CE3).writeReg 1 9)) (fun t => t.pc == 8) = true := by decide
/-- B4. -/
theorem test_bne_not_taken : nextIs (step (((fetching 100 0x00209463).writeReg 1 2).writeReg 2 2)) (fun t => t.pc == 104) =
    true := by decide
/-- B5: signed. -/
theorem test_blt_signed : nextIs (step ((fetching 100 0x0020A463).writeReg 1 0xFFFFFFFF)) (fun t => t.pc == 108) = true := by
  decide
/-- B6. -/
theorem test_blt_not_taken : nextIs (step ((fetching 100 0x0020A463).writeReg 2 0xFFFFFFFF)) (fun t => t.pc == 104) = true := by
  decide
/-- J1: the source's own example S5. -/
theorem test_jal_link : nextIs (step (fetching 200 0x00C002EF)) (fun t => t.pc == 212 && t.readReg 5 == 204) = true := by decide
/-- J5: the target wraps. -/
theorem test_jal_wraps : nextIs (step (fetching 0 0xFFDFF0EF)) (fun t => t.pc == 0xFFFFFFFC && t.readReg 1 == 4) = true := by
  decide
/-- J8: bit 0 cleared. -/
theorem test_jalr_mask : nextIs (step ((fetching 100 0x00410367).writeReg 2 501)) (fun t => t.pc == 504 && t.readReg 6 == 104) =
    true := by decide
/-- J11: rd = rs1, the old value is the target. -/
theorem test_jalr_same_register : nextIs (step ((fetching 100 0x000080E7).writeReg 1 0xC8))
    (fun t => t.pc == 200 && t.readReg 1 == 104) = true := by decide

/-! ### Other opcode constants (R8): the one change that R86 names, F3_BLT = 100 -/

/-- The constants of R86's last sentence. -/
def bltOf100 : OpcodeTable := { opcodes with f3Blt := 0b100 }

/-- Vector B15's word is BLT under these constants, and its own funct3 010 no longer is. -/
theorem test_other_constants : bltOf100.distinct = true ∧ decodeWith bltOf100 0x0020C463 = .ok (.blt 1 2 8) ∧
    nextIs (stepWith bltOf100 ((fetching 100 0x0020C463).writeReg 2 1)) (fun t => t.pc == 108) = true ∧
    faultIs (stepWith bltOf100 (fetching 100 0x0020A463)) .unimplementedInstruction = true := by decide
/-- The assembler and the host port of the same machine. -/
theorem test_other_constants_assembler : Asm.assemble bltOf100 [] ["blt x1,x2,8".toList] = .words [0x0020C463] ∧
    (serveAll bltOf100 0 [.loadProgram [0x0020C463] 0, .setRegister 2 1, .step] State.reset).1.pc = 8 := by decide

/-! ### Step errors -/

/-- E7. -/
theorem test_fetch_out_of_bounds : faultIs (step ((State.construct 1024 0).setPc 1021)) .fetchOutOfBounds = true := by decide
/-- E9: no wrap of pc + 4. -/
theorem test_fetch_no_wrap : faultIs (step ((State.construct 1024 0).setPc 0xFFFFFFFE)) .fetchOutOfBounds = true := by decide
/-- E12: an odd pc is fetched from. -/
theorem test_fetch_odd_pc : nextIs (step (fetching 1 0x00100093)) (fun t => t.readReg 1 == 1 && t.pc == 5) = true := by decide
/-- E3. -/
theorem test_invalid_opcode : faultIs (step (fetching 0 0x69646461)) .invalidOpcode = true := by decide
/-- M22: funct3 is checked before the address. -/
theorem test_unimplemented_first : faultIs (step ((fetching 0 0x00010183).writeReg 2 0x1388)) .unimplementedInstruction = true := by
  decide
/-- M14: rd = 0 still faults. -/
theorem test_load_out_of_bounds : faultIs (step ((fetching 0 0x0000A003).writeReg 1 0x7D0)) .loadOutOfBounds = true := by decide
/-- M12. -/
theorem test_store_out_of_bounds : faultIs (step (((fetching 0 0x00112023).writeReg 1 0xFFFFFFFF).writeReg 2 0x3FD))
    .storeOutOfBounds = true := by decide
/-- The codes of R159. -/
theorem test_codes : [Fault.fetchOutOfBounds, .invalidOpcode, .unimplementedInstruction, .loadOutOfBounds, .storeOutOfBounds].map
    Fault.code = [1, 2, 3, 4, 5] := by decide

/-! ### Host port (section 6) -/

/-- H3. -/
theorem test_host_empty_load : serveAll opcodes 0 [.loadProgram [] 0, .step] (State.construct 0 0) =
    (State.construct 0 0, [.ok, .error .fetchOutOfBounds]) := by decide
/-- H5. -/
theorem test_host_set_register : (serve opcodes 0 (.setRegister 31 0xDEADBEEF) State.reset).1.readReg 31 = 0xDEADBEEF ∧
    (serve opcodes 0 (.setRegister 31 0xDEADBEEF) State.reset).1.readReg 30 = 0 := by decide
/-- H11. -/
theorem test_host_last_word : (serveAll opcodes 0 [.loadProgram [0x00100093] 1020, .step, .step] State.reset).2 =
    [.ok, .ok, .error .fetchOutOfBounds] := by decide
/-- H12. -/
theorem test_host_refused : serve opcodes 0 (.loadProgram [0x00100093, 0x00100093] 1020) State.reset =
    (State.reset, .refused .loadProgramDoesNotFit) := by decide
/-- R31: RESET keeps MEM_SIZE, sets the pc to the machine's RESET_PC and clears the rest. -/
theorem test_host_reset : (serve opcodes 8 .reset ((fetching 0 0x00100093).writeReg 7 1)).1 = State.construct 1024 8 := by decide

/-! ### Assembler (section 5) -/

/-- AS3: labels, blank and comment lines, `j`. -/
theorem test_asm_labels : Asm.assemble opcodes "a.s".toList ["a: b:".toList, "".toList, "c: j c".toList, "  ; only a comment".toList, "d:".toList,
    " j a".toList, " j d".toList] = .words [0x0000006F, 0xFFDFF06F, 0xFFDFF06F] := by decide
/-- AS4. -/
theorem test_asm_forward : Asm.assemble opcodes "a.s".toList ["top: blt x1,x2,fwd".toList, "j top".toList, "fwd: slt x3,x1,x2".toList,
    "slli x4,x3,31".toList] = .words [0x0020A463, 0xFFDFF06F, 0x0020A1B3, 0x01F19213] := by decide
/-- Two lines of AO4, with white space and a comment added. -/
theorem test_asm_memory_operands : Asm.assemble opcodes "a.s".toList ["sw x1, 2047(x2)  # last".toList, "\tjalr x1,2047 (x2)".toList] =
    .words [0x7E112FA3, 0x7FF100E7] := by decide
/-- AO1, AO2: odd offsets. -/
theorem test_asm_odd : Asm.assemble opcodes "a.s".toList ["beq x0,x0,4095".toList, "jal x1,3".toList] = .words [0x7E000FE3, 0x002000EF] := by decide
/-- AE1. -/
theorem test_asm_unknown_label : Asm.assemble opcodes "a.s".toList ["addi x1,x0,1".toList, "beq x1,x0,nowhere".toList] = .error "a.s".toList 2 .unknownLabel := by
  decide
/-- AE2. -/
theorem test_asm_unsupported : Asm.assemble opcodes "a.s".toList ["addi x1,x0,1".toList, "nop".toList] = .error "a.s".toList 2 .unsupportedInstruction := by decide
/-- R105, R106: a final operand that is no numeral is looked up, whatever its characters; a text that matches no operand
pattern is an error, not a refusal. -/
theorem test_asm_mismatches : [Asm.assemble opcodes [] ["jal x1,8(x2)".toList], Asm.assemble opcodes [] ["beq x1,x0,foo.bar".toList],
    Asm.assemble opcodes [] ["addi x1,x0,5(x1)".toList], Asm.assemble opcodes [] ["addi x1,x0,--5".toList],
    Asm.assemble opcodes [] ["lw x1,4(x2))".toList], Asm.assemble opcodes [] ["add x1,foo,X2".toList]] =
    [.error [] 1 .unknownLabel, .error [] 1 .unknownLabel, .error [] 1 .invalidOperands, .error [] 1 .invalidOperands,
      .error [] 1 .invalidOperands, .error [] 1 .invalidOperands] := by decide
/-- AE12. -/
theorem test_asm_invalid_operands : Asm.assemble opcodes "a.s".toList ["lw x1,lab(x2)".toList, "lab: add x1,x1,x1".toList] =
    .error "a.s".toList 1 .invalidOperands := by decide
/-- AE6. -/
theorem test_asm_range : Asm.assemble opcodes "a.s".toList ["slli x1,x1,32".toList] = .error "a.s".toList 1 .immediateOutOfRange := by decide
/-- R114: what the document does not settle is refused. -/
theorem test_asm_refused : [Asm.assemble opcodes "a.s".toList ["ADD x1,x1,x1".toList], Asm.assemble opcodes "a.s".toList ["add x1,x01,x1".toList],
    Asm.assemble opcodes "a.s".toList ["addi x1,x1,+5".toList], Asm.assemble opcodes [] ["addi x1,x1,0x10".toList],
    Asm.assemble opcodes [] ["add x1,x32,x1".toList], Asm.assemble opcodes [] ["add sp,x1,x1".toList], Asm.assemble opcodes "a.s".toList ["a:".toList, "a:".toList], Asm.assemble opcodes "a.s".toList ["slli x1,x1,-1".toList]] =
    [.refused 1 .mnemonicCase, .refused 1 .registerForm, .refused 1 .numeralForm, .refused 1 .numeralForm,
      .refused 1 .registerForm, .refused 1 .registerForm, .refused 2 .duplicateLabel,
      .refused 1 .negativeShift] := by decide
/-- The printed form of vector M3's word, and none for a word with ignored bits set. -/
theorem test_asm_source_line : Asm.sourceLine (.sw 1 2 (-4)) = some "sw x1, -4(x2)".toList ∧
    Asm.sourceLine (.slt 3 1 2 1) = none := by decide

/-! ### Witnesses: concrete inputs that meet the hypotheses of each obligation -/

theorem witness_DecodeOfEncodeIsTheInstruction : opcodes.distinct = true ∧ (Instr.beq 1 2 4094).wf = true ∧
    (Instr.jal 1 (-1048576)).wf = true := by decide
theorem witness_EncodeOfDecodeIsTheWord : decodeWith opcodes 0xFE20ACE3 = .ok (.blt 1 2 (-8)) := by decide
theorem witness_OpcodeClassIsTheMatchingTagOrInvalid : opcodes.distinct = true ∧ opclassWith opcodes 0x67 = .jalr ∧
    opclassWith opcodes 0x68 = .invalid := by decide
theorem witness_SignExtensionOfAField : 0 < 1 ∧ 1 ≤ 32 ∧ (sext32 (1 : BitVec 1)).toInt = -1 ∧
    (sext32 (0x7FFFFFFF : BitVec 32)).toInt = 0x7FFFFFFF := by decide
theorem witness_ImmediateRoundTrip : (immI (setImmI 0 (BitVec.ofInt 12 (-2048)))).toInt = -2048 ∧
    (immS (setImmS 0 (BitVec.ofInt 12 2047))).toInt = 2047 ∧ (immB (setImmB 0 (BitVec.ofInt 13 4095))).toInt = 4095 - 4095 % 2 ∧
    (immJ (setImmJ 0 (BitVec.ofInt 21 (-1048575)))).toInt = -1048575 - -1048575 % 2 := by decide
theorem witness_MutatorsReplaceExactlyTheirBits : (31 : Nat) < 32 ∧ (setImmB 0 0x1000).getLsbD 31 = true := by decide
theorem witness_WordReadIsLittleEndian : (Memory.zeroed 1024).readWord 1021 = none ∧
    (Memory.zeroed 1024).readWord 1020 = some 0 ∧ (Memory.zeroed 3).readWord 0 = none ∧ (Memory.zeroed 4).readWord 0 = some 0 := by
  decide
theorem witness_WordWriteIsAllOrNothing : (Memory.zeroed 1024).writeWord 1021 7 = none ∧
    (Memory.zeroed 1024).writeWord 1020 7 = some ⟨1024, [(1020, 7)]⟩ := by decide
/-- Two orders of writing. -/
theorem witness_CanonicalMemoriesWithEqualBytesAreEqual :
    (((Memory.zeroed 8).writeByte 5 1).writeByte 2 3).wf = true ∧ (((Memory.zeroed 8).writeByte 2 3).writeByte 5 1).wf = true ∧
    ∀ a : Nat, a < 8 → (((Memory.zeroed 8).writeByte 5 1).writeByte 2 3).readByte a =
      (((Memory.zeroed 8).writeByte 2 3).writeByte 5 1).readByte a := by decide
theorem witness_FreshMachineRunsNoProgram : opclassWith opcodes 0 = .invalid ∧
    serve opcodes 8 .step (State.construct 11 8) = (State.construct 11 8, .error .fetchOutOfBounds) ∧
    serve opcodes 8 .step (State.construct 12 8) = (State.construct 12 8, .error .invalidOpcode) := by decide
theorem witness_LoadProgramPlacesItsWords : (1016 : Word).toNat + 4 * [(0x13 : Word), 0x6F].length ≤ State.reset.mem.size ∧
    State.reset.mem.size ≤ 2 ^ 32 ∧ State.reset.mem.size < (1020 : Word).toNat + 4 * [(0x13 : Word), 0x6F].length := by decide
theorem witness_FailedStepChangesNothing : step (fetching 0 0) = .fault .invalidOpcode := eq_fault (by decide)
theorem witness_FailedStepChangesNothing_reply : serve opcodes 0 .step (fetching 0 0) = (fetching 0 0, .error .invalidOpcode) := by decide
theorem witness_FailureRepeatsUntilTheHostActs : serve opcodes 0 .step ((State.construct 1024 0).setPc 1024) =
    ((State.construct 1024 0).setPc 1024, .error .fetchOutOfBounds) := by decide
/-- Both sides of each equivalence: one step returns ok and the second ends the run; a run that has not ended. -/
theorem witness_RunEndsAtItsFirstError :
    (runToError opcodes 2 (fetching 1020 0x0000006F) = (fetching 1020 0x0000006F, none) ∧
      serveAll opcodes 0 [.step, .step] (fetching 1020 0x0000006F) = (fetching 1020 0x0000006F, [.ok, .ok])) ∧
    (runToError opcodes 2 (fetching 1020 0x13)).2 = some (.error .fetchOutOfBounds) ∧
    serveAll opcodes 0 [.step] (fetching 1020 0x13) = ((fetching 1020 0x13).setPc 1024, [.ok]) := by decide
theorem witness_StepRunsTheDecodedInstruction : (fetching 0 0x00C002EF).mem.readWord (fetching 0 0x00C002EF).pc =
    some 0x00C002EF ∧ decode 0x00C002EF = .ok (.jal 5 12) := by decide
theorem witness_StoredWordRunsNext : opcodes.distinct = true ∧ (Instr.bne 1 0 (-8)).wf = true ∧
    (State.reset.setPc 1020).pc.toNat + 4 ≤ (State.reset.setPc 1020).mem.size := by decide
/-- Each right-hand side of the statement holds somewhere. -/
theorem witness_StepErrorsInOrder : (State.reset.setPc 1021).mem.size < (State.reset.setPc 1021).pc.toNat + 4 ∧
    ((fetching 0 0).fetch = some 0 ∧ opclass 0 = .invalid) ∧
    ((fetching 0 0x00010183).fetch = some 0x00010183 ∧ opclass 0x00010183 ≠ .invalid ∧ decode 0x00010183 = .unimplemented) ∧
    (decode 0xFFC02183 = .ok (.lw 3 0 (-4)) ∧ 1024 < ((fetching 0 0xFFC02183).effectiveAddress 0 (-4)).toNat + 4) ∧
    (decode 0xFE002E23 = .ok (.sw 0 0 (-4)) ∧ 1024 < ((fetching 0 0xFE002E23).effectiveAddress 0 (-4)).toNat + 4) := by decide
theorem witness_WellFormedIsKeptByEveryStep : (fetching 0 0x00502223).wf = true ∧ ∃ t, step (fetching 0 0x00502223) = .next t :=
  ⟨by decide, exists_next (by decide)⟩
theorem witness_EvenPcIsKeptByEveryStep : (fetching 2 0x00100093).pcEven ∧ ∃ t, step (fetching 2 0x00100093) = .next t :=
  ⟨rfl, exists_next (by decide)⟩
theorem witness_HostRequestsKeepWellFormed : State.reset.wf = true ∧ (State.construct 0 0).wf = true := by decide
/-- An instruction that is no store, and a store (also for the next two statements). -/
theorem witness_OnlyStoreChangesMemory : ((fetching 0 0x00012183).fetch = some 0x00012183 ∧ opclass 0x00012183 ≠ .store ∧
      ∃ t, step (fetching 0 0x00012183) = .next t) ∧
    ((fetching 0 0x00112023).fetch = some 0x00112023 ∧ opclass 0x00112023 = .store ∧
      ∃ t, step (fetching 0 0x00112023) = .next t) :=
  ⟨⟨by decide, by decide, exists_next (by decide)⟩, by decide, by decide, exists_next (by decide)⟩
theorem witness_OnlyTheDestinationRegisterChanges : (fetching 0 0x00208463).fetch = some 0x00208463 ∧
    opclass 0x00208463 = .branch ∧ ∃ t, step (fetching 0 0x00208463) = .next t :=
  ⟨by decide, by decide, exists_next (by decide)⟩
theorem witness_PcAfterEveryStep : opcodes.distinct = true ∧ (opclass 0x00C002EF = .jal ∧ ∃ t, step (fetching 200 0x00C002EF) = .next t) ∧
    (opclass 0x00410367 = .jalr ∧ ∃ t, step (fetching 100 0x00410367) = .next t) ∧
    (opclass 0xFE009CE3 = .branch ∧ ∃ t, step (fetching 16 0xFE009CE3) = .next t) ∧
    (opclass 0x00000013 = .iType ∧ ∃ t, step (fetching 8 0x00000013) = .next t) :=
  ⟨by decide, ⟨by decide, exists_next (by decide)⟩, ⟨by decide, exists_next (by decide)⟩, ⟨by decide, exists_next (by decide)⟩,
    by decide, exists_next (by decide)⟩
/-- The store of program P4 onto the next instruction. -/
theorem witness_StoreIsSeenByTheNextFetch : ((fetching 12 0x00102823).writeReg 1 0x00700293).effectiveAddress 0 16 =
      ((fetching 12 0x00102823).writeReg 1 0x00700293).pc + 4 ∧
    ∃ t, exec (.sw 1 0 16) ((fetching 12 0x00102823).writeReg 1 0x00700293) = .next t :=
  ⟨by decide, exists_next (by decide)⟩
/-- Two different data that agree in every byte: one lists a zero byte. -/
theorem witness_ObservedStateDeterminesTheStep :
    SameRegs (fetching 0 0x13) { fetching 0 0x13 with mem := ⟨1024, [(0, 0x13), (5, 0)]⟩ } ∧
    SameMemory (fetching 0 0x13) { fetching 0 0x13 with mem := ⟨1024, [(0, 0x13), (5, 0)]⟩ } ∧
    ∃ t, step (fetching 0 0x13) = .next t := by
  refine ⟨fun r => rfl, ⟨rfl, fun a => ?_⟩, exists_next (by decide)⟩
  show cellsRead [(0, 0x13), (5, 0)] a = cellsRead [(0, 0x13)] a
  simp only [cellsRead]
  split
  · rfl
  · split <;> rfl
theorem witness_LwLoadsTheWordInBounds :
    ((State.reset.writeReg 2 1020).effectiveAddress 2 0).toNat + 4 ≤ (State.reset.writeReg 2 1020).mem.size ∧
    ((State.reset.writeReg 2 0xFFFFFFFF).effectiveAddress 2 1).toNat + 4 ≤ (State.reset.writeReg 2 0xFFFFFFFF).mem.size := by
  decide
theorem witness_LwOutOfBoundsFails : ((fetching 0 0x00012183).writeReg 2 1021).mem.size <
      (((fetching 0 0x00012183).writeReg 2 1021).effectiveAddress 2 0).toNat + 4 ∧
    ((fetching 0 0x00012183).writeReg 2 1021).fetch = some 0x00012183 ∧ decode 0x00012183 = .ok (.lw 3 2 0) := by decide
theorem witness_SwStoresTheWordInBounds :
    ((State.reset.writeReg 2 1020).effectiveAddress 2 0).toNat + 4 ≤ (State.reset.writeReg 2 1020).mem.size := by decide
theorem witness_SwOutOfBoundsFails : ((fetching 0 0x00112023).writeReg 2 1021).mem.size <
      (((fetching 0 0x00112023).writeReg 2 1021).effectiveAddress 2 0).toNat + 4 ∧
    ((fetching 0 0x00112023).writeReg 2 1021).fetch = some 0x00112023 ∧ decode 0x00112023 = .ok (.sw 1 2 0) := by decide
/-- For the three branch statements: the extremes of an even B immediate. -/
theorem witness_BeqBneBlt : evenImm (4094 : BitVec 13) = true ∧ evenImm (-4096 : BitVec 13) = true := by decide
theorem witness_JalLinksAndJumps : evenImm (1048574 : BitVec 21) = true ∧ evenImm (-1048576 : BitVec 21) = true := by decide
theorem witness_AssembledWordDecodesToItsLine : opcodes.distinct = true ∧ (Asm.build opcodes (.beq 1 2 4095)).toOption = some 0x7E208FE3 := by decide
/-- Labels at addresses other than 0, one of them at the end of the unit. -/
theorem witness_LabelAddressesAreInstructionAddresses :
    (Asm.pass1 ["j a".toList, "a: j a".toList, "end:".toList]).toOption =
      some ⟨[("a".toList, 4), ("end".toList, 8)], [(1, "j a".toList), (2, "j a".toList)]⟩ ∧
    "a".toList ∈ Asm.labelsOf "a: j a".toList ∧ Asm.instructionCount ["j a".toList] = 1 ∧
    Asm.instructionText "a: j a".toList ≠ [] := by decide
theorem witness_OneWordPerInstructionLine : Asm.assemble opcodes "a.s".toList ["a: j a".toList, "end:".toList] = .words [0x0000006F] := by decide

end Sys2Proof.Tests
end

section
/-! The memory's canonical form and MEM_SIZE along a step (00_scope.md R7, 20_memory.md R37): a next state's memory is the
old one or the old one with one word stored, and the word write keeps both. -/

namespace Sys2Proof.Machine

theorem exec_next_wf {i : Instr} {s t : State} (hs : s.wf = true) (h : exec i s = .next t) : t.wf = true := by
  show t.mem.wf = true
  obtain hmem | ⟨addr, v, hstore⟩ := exec_next_mem h
  · rw [hmem]
    exact hs
  · exact Memory.wf_writeWord hs hstore

/-- MEM_SIZE stays also where the memory is not in canonical form. -/
theorem exec_next_memSize {i : Instr} {s t : State} (h : exec i s = .next t) : t.mem.size = s.mem.size := by
  obtain hmem | ⟨addr, v, hstore⟩ := exec_next_mem h
  · rw [hmem]
  · exact (Memory.writeWord_spec hstore).1

theorem stepWith_next_wf {c : OpcodeTable} {s t : State} (hs : s.wf = true) (h : stepWith c s = .next t) :
    t.wf = true := by
  obtain ⟨w, i, -, -, hexec⟩ := stepWith_next_cases h
  exact exec_next_wf hs hexec

theorem stepWith_next_memSize {c : OpcodeTable} {s t : State} (h : stepWith c s = .next t) :
    t.mem.size = s.mem.size := by
  obtain ⟨w, i, -, -, hexec⟩ := stepWith_next_cases h
  exact exec_next_memSize hexec

/-- Settles O28: whatever a step runs leaves the memory or stores one word in it; `step` is the case of the default
constants. -/
theorem wellFormedIsKeptByEveryStep : Obligations.WellFormedIsKeptByEveryStep := by
  have keeps (c : OpcodeTable) (s t : State) (hs : s.wf = true) (h : stepWith c s = .next t) :
      t.wf = true ∧ t.mem.size = s.mem.size := ⟨stepWith_next_wf hs h, stepWith_next_memSize h⟩
  exact ⟨keeps, keeps opcodes⟩

end Sys2Proof.Machine
end

section
/-! Registers and the pc as the host sees them: what a register reads after a write (10_state.md R14, R15), after reset (R31,
R34) and after SET_REGISTER and SET_PC (R29, R30). -/

namespace Sys2Proof.Machine

/-! ### The register file -/

theorem State.readReg_writeReg (s : State) (i j : RegIdx) (v : Word) :
    (s.writeReg i v).readReg j = if j = 0 then 0 else if j = i then v else s.readReg j := by
  by_cases hj : j = 0
  · subst hj
    exact State.readReg_zero _
  · rw [if_neg hj]
    by_cases hji : j = i
    · subst hji
      rw [if_pos rfl, State.readReg_writeReg_same s j v hj]
    · rw [if_neg hji, State.readReg_writeReg_ne s i j v hji]

theorem State.readReg_writeReg_self (s : State) (i : RegIdx) (v : Word) :
    (s.writeReg i v).readReg i = writtenReg i v := by
  simp [State.readReg_writeReg, writtenReg]

theorem State.sameRegsBut_writeReg (s : State) (i : RegIdx) (v : Word) : SameRegsBut i s (s.writeReg i v) :=
  fun r hr => State.readReg_writeReg_ne s i r v hr

/-- Settles O12: the law of the register file, and the discarded write to register 0. -/
theorem registerWriteThenRead : Obligations.RegisterWriteThenRead := by
  intro s i j v
  refine ⟨State.readReg_writeReg s i j v, State.writeReg_pc s i v, State.writeReg_mem s i v, ?_⟩
  rintro rfl
  exact State.writeReg_zero s v

/-! ### Construction and RESET -/

@[simp] theorem State.construct_readReg (size : Nat) (resetPc : Word) (r : RegIdx) :
    (State.construct size resetPc).readReg r = 0 := by
  unfold State.readReg
  split
  · rfl
  · exact Vector.getElem_replicate _

@[simp] theorem State.construct_readByte (size : Nat) (resetPc : Word) (a : Nat) :
    (State.construct size resetPc).mem.readByte a = 0 := Memory.readByte_zeroed size a

theorem State.wf_construct {size : Nat} (h : size ≤ Config.maxMemSize) (resetPc : Word) :
    (State.construct size resetPc).wf = true := Memory.wf_zeroed h

/-- Settles O16: RESET answers the machine constructed with the old MEM_SIZE. -/
theorem resetRequestGivesTheResetState : Obligations.ResetRequestGivesTheResetState := fun _ resetPc s =>
  ⟨State.construct s.mem.size resetPc, rfl, State.construct_readReg _ _, rfl, State.construct_readByte _ _, rfl⟩

/-- Settles O17: `State.reset` is the machine constructed with 1024 bytes and RESET_PC 0. -/
theorem resetStateValues : Obligations.ResetStateValues :=
  ⟨State.construct_readReg _ _, rfl, State.construct_readByte _ _, rfl, rfl⟩

/-- Settles O30: construction gives an empty, hence canonical, memory and the pc at RESET_PC. -/
theorem resetMeetsTheInvariants : Obligations.ResetMeetsTheInvariants :=
  ⟨Memory.wf_reset, rfl, fun _ resetPc hn => ⟨State.wf_construct hn resetPc, id⟩⟩

/-! ### SET_REGISTER and SET_PC -/

/-- Settles O19: the two requests are `writeReg` and `setPc`, with their frames. -/
theorem setRegisterAndSetPcRequests : Obligations.SetRegisterAndSetPcRequests := by
  intro c resetPc s i v
  constructor
  · exact ⟨s.writeReg i v, rfl, State.readReg_writeReg_self s i v, State.sameRegsBut_writeReg s i v,
      State.writeReg_pc s i v, State.writeReg_mem s i v⟩
  · exact ⟨s.setPc v, rfl, State.setPc_pc s v, State.setPc_readReg s v, State.setPc_mem s v⟩

end Sys2Proof.Machine
end

section
/-! What the decoder can answer, said once, for any opcode constants (30_encoding.md R87). -/

namespace Sys2Proof

open Codec

/-- What a decoded word is: its class, the secondary constants that selected the instruction, and the instruction's operands
as fields of the word (30_encoding.md R87). -/
inductive DecodesTo (c : OpcodeTable) (w : Word) : Instr → Prop
  | add (hc : opclassWith c w = .rType) (h3 : funct3 w = c.f3AddSub) (h7 : funct7 w = c.f7Add) :
      DecodesTo c w (.add (rd w) (rs1 w) (rs2 w))
  | sub (hc : opclassWith c w = .rType) (h3 : funct3 w = c.f3AddSub) (h7 : funct7 w = c.f7Sub) :
      DecodesTo c w (.sub (rd w) (rs1 w) (rs2 w))
  | slt (hc : opclassWith c w = .rType) (h3 : funct3 w = c.f3Slt) :
      DecodesTo c w (.slt (rd w) (rs1 w) (rs2 w) (funct7 w))
  | addi (hc : opclassWith c w = .iType) (h3 : funct3 w = c.f3Addi) :
      DecodesTo c w (.addi (rd w) (rs1 w) (rawI w))
  | slli (hc : opclassWith c w = .iType) (h3 : funct3 w = c.f3Slli) :
      DecodesTo c w (.slli (rd w) (rs1 w) (rawI w))
  | lw (hc : opclassWith c w = .load) (h3 : funct3 w = c.f3Lw) :
      DecodesTo c w (.lw (rd w) (rs1 w) (rawI w))
  | sw (hc : opclassWith c w = .store) (h3 : funct3 w = c.f3Sw) :
      DecodesTo c w (.sw (rs2 w) (rs1 w) (rawS w))
  | beq (hc : opclassWith c w = .branch) (h3 : funct3 w = c.f3Beq) :
      DecodesTo c w (.beq (rs1 w) (rs2 w) (rawB w))
  | bne (hc : opclassWith c w = .branch) (h3 : funct3 w = c.f3Bne) :
      DecodesTo c w (.bne (rs1 w) (rs2 w) (rawB w))
  | blt (hc : opclassWith c w = .branch) (h3 : funct3 w = c.f3Blt) :
      DecodesTo c w (.blt (rs1 w) (rs2 w) (rawB w))
  | jal (hc : opclassWith c w = .jal) : DecodesTo c w (.jal (rd w) (rawJ w))
  | jalr (hc : opclassWith c w = .jalr) :
      DecodesTo c w (.jalr (rd w) (rs1 w) (rawI w) (funct3 w))

/-- The decoder's inversion: no later proof splits its branches again. -/
theorem decodesTo_of_decodeWith {c : OpcodeTable} {w : Word} {i : Instr} (h : decodeWith c w = .ok i) :
    DecodesTo c w i := by
  cases hc : opclassWith c w with
  | invalid => simp [decodeWith, hc] at h
  | rType =>
    simp only [decodeWith, hc] at h
    split_ifs at h with hadd hsub hslt
    · cases h; exact .add hc hadd.1 hadd.2
    · cases h; exact .sub hc hsub.1 hsub.2
    · cases h; exact .slt hc hslt
  | iType =>
    simp only [decodeWith, hc] at h
    split_ifs at h with haddi hslli
    · cases h; exact .addi hc haddi
    · cases h; exact .slli hc hslli
  | load =>
    simp only [decodeWith, hc] at h
    split_ifs at h with hlw
    cases h; exact .lw hc hlw
  | store =>
    simp only [decodeWith, hc] at h
    split_ifs at h with hsw
    cases h; exact .sw hc hsw
  | branch =>
    simp only [decodeWith, hc] at h
    split_ifs at h with hbeq hbne hblt
    · cases h; exact .beq hc hbeq
    · cases h; exact .bne hc hbne
    · cases h; exact .blt hc hblt
  | jal =>
    simp only [decodeWith, hc] at h
    cases h; exact .jal hc
  | jalr =>
    simp only [decodeWith, hc] at h
    cases h; exact .jalr hc

theorem decodeWith_wf {c : OpcodeTable} {w : Word} {i : Instr} (h : decodeWith c w = .ok i) : i.wf = true := by
  cases decodesTo_of_decodeWith h with
  | beq | bne | blt => exact evenImm_rawB w
  | jal => exact evenImm_rawJ w
  | add | sub | slt | addi | slli | lw | sw | jalr => rfl

end Sys2Proof
end

section
/-! The even pc (10_state.md R21). Evenness of a word is said as the model says it of an immediate, by `evenImm`. The pc of a
next state is pc + 4, the pc plus an even offset, or a sum whose bit 0 is cleared; the offsets are even because the decoder
gives well-formed instructions only. -/

namespace Sys2Proof

theorem evenImm_iff_toNat {n : Nat} (v : BitVec n) : evenImm v = true ↔ v.toNat % 2 = 0 := by
  simp [evenImm, BitVec.getLsbD, Nat.testBit_zero]

theorem evenImm_add {a b : Word} (ha : evenImm a = true) (hb : evenImm b = true) : evenImm (a + b) = true := by
  rw [evenImm_iff_toNat] at *
  rw [BitVec.toNat_add]
  omega

theorem evenImm_instrSize : evenImm instrSize = true := by decide

end Sys2Proof

namespace Sys2Proof.Machine

/-- Sign extension keeps bit 0. -/
theorem evenImm_immValue {n : Nat} (hn : 0 < n) {imm : BitVec n} (h : evenImm imm = true) :
    evenImm (immValue imm) = true := by
  rw [evenImm, immValue, Codec.sext32, BitVec.getLsbD_signExtend, if_pos hn]
  simpa [evenImm] using h

theorem State.pcEven_iff (s : State) : s.pcEven ↔ evenImm s.pc = true := (evenImm_iff_toNat s.pc).symm

theorem State.evenImm_nextPc {s : State} (hs : s.pcEven) : evenImm (s.pc + instrSize) = true :=
  evenImm_add (s.pcEven_iff.mp hs) evenImm_instrSize

theorem State.evenImm_relativeTarget {n : Nat} (hn : 0 < n) {s : State} {imm : BitVec n} (hs : s.pcEven)
    (himm : evenImm imm = true) : evenImm (s.relativeTarget imm) = true :=
  evenImm_add (s.pcEven_iff.mp hs) (evenImm_immValue hn himm)

/-- The mask of JALR clears bit 0, whatever the pc was. -/
theorem State.evenImm_indirectTarget (s : State) (rs1 : RegIdx) (imm : BitVec 12) :
    evenImm (s.indirectTarget rs1 imm) = true := by
  simp [evenImm, State.indirectTarget]

theorem State.pcEven_branchIf {s : State} (hs : s.pcEven) (taken : Bool) {imm : BitVec 13} (himm : evenImm imm = true) :
    (s.branchIf taken imm).pcEven := by
  rw [State.pcEven_iff]
  cases taken with
  | true => exact State.evenImm_relativeTarget (by decide) hs himm
  | false => exact State.evenImm_nextPc hs

theorem exec_next_pcEven {i : Instr} {s t : State} (hi : i.wf = true) (hs : s.pcEven) (h : exec i s = .next t) :
    t.pcEven := by
  cases i with
  | add | sub | slt | addi | slli =>
    injection h with h
    subst h
    rw [State.pcEven_iff, State.writeBack_pc]
    exact State.evenImm_nextPc hs
  | lw rd rs1 imm =>
    obtain ⟨v, -, rfl⟩ := execLw_next h
    rw [State.pcEven_iff, State.writeBack_pc]
    exact State.evenImm_nextPc hs
  | sw rs2 rs1 imm =>
    obtain ⟨m, -, rfl⟩ := execSw_next h
    rw [State.pcEven_iff]
    exact State.evenImm_nextPc hs
  | beq | bne | blt =>
    injection h with h
    subst h
    exact State.pcEven_branchIf hs _ hi
  | jal rd imm =>
    injection h with h
    subst h
    rw [State.pcEven_iff]
    exact State.evenImm_relativeTarget (by decide) hs hi
  | jalr rd rs1 imm funct3 =>
    injection h with h
    subst h
    rw [State.pcEven_iff]
    exact State.evenImm_indirectTarget s rs1 imm

/-- Settles O29: what is decoded is well-formed, and a well-formed instruction keeps the pc even; `step` is the case of the
default constants. -/
theorem evenPcIsKeptByEveryStep : Obligations.EvenPcIsKeptByEveryStep := by
  have keeps (c : OpcodeTable) (s t : State) (hs : s.pcEven) (h : stepWith c s = .next t) : t.pcEven := by
    obtain ⟨w, i, -, hdecode, hexec⟩ := stepWith_next_cases h
    exact exec_next_pcEven (decodeWith_wf hdecode) hs hexec
  exact ⟨keeps, keeps opcodes⟩

end Sys2Proof.Machine
end

section
/-! The register frame of a step (10_state.md R17, 40_step_cycle.md R123): an instruction leaves every register but its
destination, and the destination is the word's rd field, or none for SW and the branches. -/

namespace Sys2Proof

/-- The register an instruction writes (a write to register 0 among them), none for SW and the branches. -/
def Instr.dest : Instr → Option RegIdx
  | .add rd _ _ => some rd
  | .sub rd _ _ => some rd
  | .slt rd _ _ _ => some rd
  | .addi rd _ _ => some rd
  | .slli rd _ _ => some rd
  | .lw rd _ _ => some rd
  | .sw _ _ _ => none
  | .beq _ _ _ => none
  | .bne _ _ _ => none
  | .blt _ _ _ => none
  | .jal rd _ => some rd
  | .jalr rd _ _ _ => some rd

theorem decodeWith_dest {c : OpcodeTable} {w : Word} {i : Instr} (h : decodeWith c w = .ok i) :
    i.dest = if Codec.opclassWith c w = .store ∨ Codec.opclassWith c w = .branch then none else some (Codec.rd w) := by
  cases decodesTo_of_decodeWith h with
  | add hc | sub hc | slt hc | addi hc | slli hc | lw hc | sw hc | beq hc | bne hc | blt hc | jal hc | jalr hc =>
    simp [Instr.dest, hc]

end Sys2Proof

namespace Sys2Proof.Machine

theorem exec_next_readReg {i : Instr} {s t : State} {r : RegIdx} (hr : i.dest ≠ some r) (h : exec i s = .next t) :
    t.readReg r = s.readReg r := by
  have other {rd : RegIdx} (hrd : some rd ≠ some r) (v : Word) : (s.writeReg rd v).readReg r = s.readReg r :=
    State.readReg_writeReg_ne s rd r v fun e => hrd (congrArg some e.symm)
  cases i with
  | lw rd rs1 imm =>
    obtain ⟨v, -, rfl⟩ := execLw_next h
    exact other hr v
  | sw rs2 rs1 imm =>
    obtain ⟨m, -, rfl⟩ := execSw_next h
    rfl
  | add | sub | slt | addi | slli | jal | jalr =>
    injection h with h
    subst h
    exact other hr _
  | beq | bne | blt =>
    injection h with h
    subst h
    exact State.branchIf_readReg ..

/-- Settles O33: the decoded instruction's destination is rd or, for the classes STORE and BRANCH, none. -/
theorem onlyTheDestinationRegisterChanges : Obligations.OnlyTheDestinationRegisterChanges := by
  intro c s t w hfetch hstep
  obtain ⟨w', i, hfetch', hdecode, hexec⟩ := stepWith_next_cases hstep
  obtain rfl : w = w' := Option.some.inj (hfetch.symm.trans hfetch')
  have hdest := decodeWith_dest hdecode
  refine ⟨fun hclass r => exec_next_readReg ?_ hexec, fun r hr => exec_next_readReg ?_ hexec⟩
  · simp [hdest, hclass]
  · rw [hdest]
    split
    · exact (Option.some_ne_none r).symm
    · exact fun e => hr (Option.some.inj e).symm

end Sys2Proof.Machine
end

section
/-! LOAD_PROGRAM (10_state.md R32) and the canonical form along every request (R27). The words are stored at ascending
addresses, each four bytes on from the last; within a memory of at most 2^32 bytes those addresses do not wrap while words
are left, so no word is overwritten by a later one. -/

namespace Sys2Proof.Machine

/-! ### The loop over the words -/

theorem Memory.loadWords_cons_some {m m' : Memory} {addr w : Word} {rest : List Word}
    (h : m.loadWords addr (w :: rest) = some m') :
    ∃ m1, m.writeWord addr w = some m1 ∧ m1.loadWords (addr + instrSize) rest = some m' := by
  unfold Memory.loadWords at h
  cases hw : m.writeWord addr w with
  | none => simp [hw] at h
  | some m1 => exact ⟨m1, rfl, by simpa [hw] using h⟩

theorem nextWordAddr_toNat (addr : Word) : (addr + instrSize).toNat = (addr.toNat + 4) % 2 ^ 32 :=
  BitVec.toNat_add addr instrSize

/-- A program that fits fits word by word, also where the last word ends at 2^32 and the address wraps to 0. -/
theorem Memory.fits_tail {m m1 : Memory} {addr : Word} {n : Nat} (hsize : m1.size = m.size) (h : m.fits addr (n + 1)) :
    m1.fits (addr + instrSize) n := by
  unfold Memory.fits at *
  rw [nextWordAddr_toNat, hsize]
  omega

theorem Memory.loadWords_of_fits (words : List Word) :
    ∀ {m : Memory} {addr : Word}, m.fits addr words.length → ∃ m', m.loadWords addr words = some m' := by
  induction words with
  | nil => exact fun _ => ⟨_, rfl⟩
  | cons w rest ih =>
    intro m addr hfits
    obtain ⟨m1, hw⟩ := Memory.writeWord_admitted m addr w (by simp only [Memory.fits, List.length_cons] at hfits; omega)
    obtain ⟨m', hm'⟩ := ih (Memory.fits_tail (Memory.writeWord_spec hw).1 hfits)
    exact ⟨m', by simp only [Memory.loadWords, hw, hm']⟩

theorem Memory.loadWords_size (words : List Word) :
    ∀ {m m' : Memory} {addr : Word}, m.loadWords addr words = some m' → m'.size = m.size := by
  induction words with
  | nil => intro m m' addr h; cases h; rfl
  | cons w rest ih =>
    intro m m' addr h
    obtain ⟨m1, hw, hrest⟩ := Memory.loadWords_cons_some h
    exact (ih hrest).trans (Memory.writeWord_spec hw).1

theorem Memory.wf_loadWords (words : List Word) :
    ∀ {m m' : Memory} {addr : Word}, m.wf = true → m.loadWords addr words = some m' → m'.wf = true := by
  induction words with
  | nil => intro m m' addr hm h; cases h; exact hm
  | cons w rest ih =>
    intro m m' addr hm h
    obtain ⟨m1, hw, hrest⟩ := Memory.loadWords_cons_some h
    exact ih (Memory.wf_writeWord hm hw) hrest

/-- The frame: a byte below or above the loaded words is as before. -/
theorem Memory.loadWords_readByte_outside (words : List Word) :
    ∀ {m m' : Memory} {addr : Word}, m.fits addr words.length → m.size ≤ 2 ^ 32 → m.loadWords addr words = some m' →
      ∀ a : Nat, a < addr.toNat ∨ addr.toNat + 4 * words.length ≤ a → m'.readByte a = m.readByte a := by
  induction words with
  | nil => intro m m' addr _ _ h; cases h; exact fun _ _ => rfl
  | cons w rest ih =>
    intro m m' addr hfits hsize h a ha
    obtain ⟨m1, hw, hrest⟩ := Memory.loadWords_cons_some h
    obtain ⟨hsize1, -, hframe⟩ := Memory.writeWord_spec hw
    have hnext := nextWordAddr_toNat addr
    have hbound : addr.toNat + 4 * (rest.length + 1) ≤ m.size := hfits
    rw [List.length_cons] at ha
    calc m'.readByte a
      _ = m1.readByte a := ih (Memory.fits_tail hsize1 hfits) (hsize1 ▸ hsize) hrest a (by omega)
      _ = m.readByte a := hframe a (by omega)

/-- A word read depends on MEM_SIZE and the four bytes at its address only. -/
theorem Memory.readWord_congr {m m' : Memory} {addr : Word} (hsize : m'.size = m.size)
    (hbytes : ∀ k < 4, m'.readByte (addr.toNat + k) = m.readByte (addr.toNat + k)) :
    m'.readWord addr = m.readWord addr := by
  have h0 : m'.readByte addr.toNat = m.readByte addr.toNat := hbytes 0 (by decide)
  simp only [Memory.readWord, Memory.admits, hsize, h0, hbytes 1 (by decide), hbytes 2 (by decide),
    hbytes 3 (by decide)]

/-- Word `i` of the program stands at `addr + 4 * i`: later words lie above it. -/
theorem Memory.loadWords_readWord (words : List Word) :
    ∀ {m m' : Memory} {addr : Word}, m.fits addr words.length → m.size ≤ 2 ^ 32 → m.loadWords addr words = some m' →
      ∀ (i : Nat) (w : Word), words[i]? = some w → m'.readWord (addr + BitVec.ofNat 32 (4 * i)) = some w := by
  induction words with
  | nil => intro m m' addr _ _ _ i w hi; simp at hi
  | cons w0 rest ih =>
    intro m m' addr hfits hsize h i w hi
    obtain ⟨m1, hw, hrest⟩ := Memory.loadWords_cons_some h
    have hsize1 : m1.size = m.size := (Memory.writeWord_spec hw).1
    have hfits1 := Memory.fits_tail hsize1 hfits
    cases i with
    | zero =>
      obtain rfl : w0 = w := by simpa using hi
      have hnext := nextWordAddr_toNat addr
      have hbound : addr.toNat + 4 * (rest.length + 1) ≤ m.size := hfits
      have hkept : m'.readWord addr = m1.readWord addr :=
        Memory.readWord_congr (Memory.loadWords_size rest hrest) fun k hk =>
          Memory.loadWords_readByte_outside rest hfits1 (hsize1 ▸ hsize) hrest _ (by omega)
      rw [Nat.mul_zero, BitVec.add_zero, hkept]
      exact Memory.readWord_writeWord_same hw
    | succ i =>
      have haddr : addr + BitVec.ofNat 32 (4 * (i + 1)) = addr + instrSize + BitVec.ofNat 32 (4 * i) := by
        rw [BitVec.add_assoc, Nat.mul_add, Nat.add_comm, BitVec.ofNat_add]
        rfl
      rw [haddr]
      exact ih hfits1 (hsize1 ▸ hsize) hrest i w (by simpa using hi)

/-! ### The request -/

theorem loadProgramRequest_of_loadWords {words : List Word} {start : Word} {s : State} {m : Memory}
    (hfits : s.mem.fits start words.length) (h : s.mem.loadWords start words = some m) :
    loadProgramRequest words start s = ({ s with mem := m, pc := start }, .ok) := by
  simp only [loadProgramRequest, hfits, if_true, h]

theorem loadProgramRequest_refused {words : List Word} {start : Word} {s : State}
    (h : ¬ s.mem.fits start words.length) :
    loadProgramRequest words start s = (s, .refused .loadProgramDoesNotFit) := by
  simp only [loadProgramRequest, h, if_false]

/-- Settles O20: the loop's memory, its words and its frame; the request's other branch is the refusal. -/
theorem loadProgramPlacesItsWords : Obligations.LoadProgramPlacesItsWords := by
  intro c resetPc s words start
  constructor
  · intro hfits hsize
    obtain ⟨m, hm⟩ := Memory.loadWords_of_fits words hfits
    exact ⟨{ s with mem := m, pc := start }, loadProgramRequest_of_loadWords hfits hm, rfl, fun _ => rfl,
      Memory.loadWords_size words hm, Memory.loadWords_readWord words hfits hsize hm,
      Memory.loadWords_readByte_outside words hfits hsize hm⟩
  · intro hbig
    exact loadProgramRequest_refused (Nat.not_le_of_lt hbig)

/-! ### Every request -/

/-- The state after a STEP request is the old one or the step's next one. -/
theorem stepRequest_state (c : OpcodeTable) (s : State) :
    (stepRequest c s).1 = s ∨ stepWith c s = .next (stepRequest c s).1 := by
  unfold stepRequest
  cases stepWith c s with
  | next t => exact .inr rfl
  | fault f => exact .inl rfl
  | refused r => exact .inl rfl

/-- The memory after a LOAD_PROGRAM request is the old one or the old one with the words loaded. -/
theorem loadProgramRequest_mem (words : List Word) (start : Word) (s : State) :
    (loadProgramRequest words start s).1.mem = s.mem ∨
      s.mem.loadWords start words = some (loadProgramRequest words start s).1.mem := by
  by_cases hfits : s.mem.fits start words.length
  · obtain ⟨m, hm⟩ := Memory.loadWords_of_fits words hfits
    rw [loadProgramRequest_of_loadWords hfits hm]
    exact .inr hm
  · rw [loadProgramRequest_refused hfits]
    exact .inl rfl

/-- RESET's memory is canonical because MEM_SIZE is within its bound before. -/
theorem Memory.size_le_of_wf {m : Memory} (h : m.wf = true) : m.size ≤ Config.maxMemSize := by
  simp only [Memory.wf, Bool.and_eq_true, decide_eq_true_eq] at h
  exact h.2

/-- Settles O31: STEP by the step's own invariant, RESET by construction, LOAD_PROGRAM by the loop's; the other two leave
the memory alone. -/
theorem hostRequestsKeepWellFormed : Obligations.HostRequestsKeepWellFormed := by
  intro c resetPc r s hs
  cases r with
  | step =>
    show (stepRequest c s).1.wf = true ∧ (stepRequest c s).1.mem.size = s.mem.size
    obtain hsame | hnext := stepRequest_state c s
    · rw [hsame]
      exact ⟨hs, rfl⟩
    · exact ⟨stepWith_next_wf hs hnext, stepWith_next_memSize hnext⟩
  | setRegister i v =>
    show (s.writeReg i v).mem.wf = true ∧ (s.writeReg i v).mem.size = s.mem.size
    rw [State.writeReg_mem]
    exact ⟨hs, rfl⟩
  | setPc v => exact ⟨hs, rfl⟩
  | reset => exact ⟨State.wf_construct (Memory.size_le_of_wf hs) resetPc, rfl⟩
  | loadProgram words start =>
    show (loadProgramRequest words start s).1.mem.wf = true ∧ (loadProgramRequest words start s).1.mem.size = s.mem.size
    obtain hsame | hloaded := loadProgramRequest_mem words start s
    · rw [hsame]
      exact ⟨hs, rfl⟩
    · exact ⟨Memory.wf_loadWords words hs hloaded, Memory.loadWords_size words hloaded⟩

end Sys2Proof.Machine
end

section
/-! The word port of the memory (20_memory.md R39 to R43): a word and its four bytes, least significant first. -/

namespace Sys2Proof.Codec

/-- The bytes of a word put together are the bytes it was put together from. -/
theorem byteOf_wordOfBytes (b0 b1 b2 b3 : Byte) :
    byteOf (wordOfBytes b0 b1 b2 b3) 0 = b0 ∧ byteOf (wordOfBytes b0 b1 b2 b3) 1 = b1 ∧
      byteOf (wordOfBytes b0 b1 b2 b3) 2 = b2 ∧ byteOf (wordOfBytes b0 b1 b2 b3) 3 = b3 := by
  unfold byteOf wordOfBytes
  refine ⟨BitVec.extractLsb'_append_eq_right, ?_, ?_, ?_⟩
  · rw [BitVec.extractLsb'_append_eq_of_le (by decide)]
    exact BitVec.extractLsb'_append_eq_right
  · rw [BitVec.extractLsb'_append_eq_of_le (by decide), BitVec.extractLsb'_append_eq_of_le (by decide)]
    exact BitVec.extractLsb'_append_eq_right
  · rw [BitVec.extractLsb'_append_eq_of_le (by decide), BitVec.extractLsb'_append_eq_of_le (by decide)]
    exact BitVec.extractLsb'_append_eq_left

end Sys2Proof.Codec

namespace Sys2Proof.Machine

theorem Memory.readWord_admitted {m : Memory} {addr : Word} (h : m.admits addr) :
    m.readWord addr = some (Codec.wordOfBytes (m.readByte addr.toNat) (m.readByte (addr.toNat + 1))
      (m.readByte (addr.toNat + 2)) (m.readByte (addr.toNat + 3))) :=
  if_pos h

/-- Settles O13: the word read inside the buffer is made of the four bytes, and gives them back. -/
theorem wordReadIsLittleEndian : Obligations.WordReadIsLittleEndian := fun m addr =>
  ⟨fun hbig => Memory.readWord_rejected m addr (Nat.not_le_of_lt hbig),
    fun hfits => ⟨_, Memory.readWord_admitted hfits, Codec.byteOf_wordOfBytes ..⟩⟩

/-- Settles O14: the write succeeds exactly inside the buffer, and `Memory.writeWord_spec` gives its bytes and frame. -/
theorem wordWriteIsAllOrNothing : Obligations.WordWriteIsAllOrNothing := by
  intro m addr v
  refine ⟨fun hbig => Memory.writeWord_rejected m addr v (Nat.not_le_of_lt hbig), fun hfits => ?_⟩
  obtain ⟨m', hwrite⟩ := Memory.writeWord_admitted m addr v hfits
  obtain ⟨hsize, hbytes, hframe⟩ := Memory.writeWord_spec hwrite
  exact ⟨m', hwrite, hsize, hbytes 0 (by decide), hbytes 1 (by decide), hbytes 2 (by decide), hbytes 3 (by decide),
    hframe⟩

end Sys2Proof.Machine
end

section
/-! The canonical form is the only form of its bytes (20_memory.md R37; log entry 24): in a list of cells with rising
addresses and no cell that reads as an unlisted address does, the first cell is at the lowest address that is not read as
unlisted. -/

namespace Sys2Proof.Machine

theorem cellsRead_cons_same (k : Nat) (v : Byte) (rest : List Host.Cell) : cellsRead ((k, v) :: rest) k = v :=
  if_pos rfl

theorem cellsRead_cons_ne {k a : Nat} (h : k ≠ a) (v : Byte) (rest : List Host.Cell) :
    cellsRead ((k, v) :: rest) a = cellsRead rest a :=
  if_neg h

theorem cellsRiseAbove_cons {lo k : Nat} {v : Byte} {rest : List Host.Cell} :
    cellsRiseAbove lo ((k, v) :: rest) = true ↔ lo ≤ k ∧ cellsRiseAbove (k + 1) rest = true := by
  simp only [cellsRiseAbove, Bool.and_eq_true, decide_eq_true_eq]

/-- An address that no cell is at reads as unlisted. -/
theorem cellsRead_of_forall_ne {a : Nat} {cells : List Host.Cell} (h : ∀ c ∈ cells, c.1 ≠ a) :
    cellsRead cells a = Memory.unlisted := by
  induction cells with
  | nil => rfl
  | cons c rest ih =>
    obtain ⟨hc, hrest⟩ := List.forall_mem_cons.mp h
    rw [cellsRead_cons_ne hc, ih hrest]

theorem le_of_mem_of_cellsRiseAbove {cells : List Host.Cell} :
    ∀ {lo : Nat}, cellsRiseAbove lo cells = true → ∀ c ∈ cells, lo ≤ c.1 := by
  induction cells with
  | nil => exact fun _ c hc => absurd hc List.not_mem_nil
  | cons head rest ih =>
    intro lo h
    obtain ⟨hlo, hrest⟩ := cellsRiseAbove_cons.mp h
    refine List.forall_mem_cons.mpr ⟨hlo, fun c hc => ?_⟩
    exact (hlo.trans (Nat.le_succ _)).trans (ih hrest c hc)

theorem cellsRead_below {lo a : Nat} {cells : List Host.Cell} (h : cellsRiseAbove lo cells = true) (ha : a < lo) :
    cellsRead cells a = Memory.unlisted :=
  cellsRead_of_forall_ne fun c hc => (ha.trans_le (le_of_mem_of_cellsRiseAbove h c hc)).ne'

/-- Of two canonical lists that read alike at the first cell `k` of one, the other's first cell `k'` is not above `k`: that
other list would read as unlisted there. -/
theorem cells_head_addr_le {k k' : Nat} {v v' : Byte} {rest rest' : List Host.Cell} (hv : v ≠ Memory.unlisted)
    (hrise : cellsRiseAbove (k' + 1) rest' = true)
    (hread : cellsRead ((k, v) :: rest) k = cellsRead ((k', v') :: rest') k) : k' ≤ k := by
  by_contra hlt
  have hbelow : cellsRead ((k', v') :: rest') k = Memory.unlisted :=
    cellsRead_below (cellsRiseAbove_cons.mpr ⟨Nat.le_refl k', hrise⟩) (Nat.lt_of_not_le hlt)
  exact hv ((cellsRead_cons_same k v rest).symm.trans (hread.trans hbelow))

theorem cells_ext {cells : List Host.Cell} :
    ∀ {cells' : List Host.Cell} {lo lo' : Nat}, cellsRiseAbove lo cells = true → cellsRiseAbove lo' cells' = true →
      (∀ c ∈ cells, c.2 ≠ Memory.unlisted) → (∀ c ∈ cells', c.2 ≠ Memory.unlisted) →
      (∀ a, cellsRead cells a = cellsRead cells' a) → cells = cells' := by
  induction cells with
  | nil =>
    intro cells' lo lo' _ _ _ hlisted' hread
    cases cells' with
    | nil => rfl
    | cons c' rest' =>
      have hzero := (hread c'.1).trans (cellsRead_cons_same c'.1 c'.2 rest')
      exact absurd hzero.symm (hlisted' c' List.mem_cons_self)
  | cons c rest ih =>
    intro cells' lo lo' hrise hrise' hlisted hlisted' hread
    obtain ⟨k, v⟩ := c
    obtain ⟨hv, hrestListed⟩ := List.forall_mem_cons.mp hlisted
    obtain ⟨-, hrestRise⟩ := cellsRiseAbove_cons.mp hrise
    cases cells' with
    | nil => exact absurd ((cellsRead_cons_same k v rest).symm.trans (hread k)) hv
    | cons c' rest' =>
      obtain ⟨k', v'⟩ := c'
      obtain ⟨hv', hrestListed'⟩ := List.forall_mem_cons.mp hlisted'
      obtain ⟨-, hrestRise'⟩ := cellsRiseAbove_cons.mp hrise'
      obtain rfl : k = k' := Nat.le_antisymm (cells_head_addr_le hv' hrestRise (hread k').symm)
        (cells_head_addr_le hv hrestRise' (hread k))
      have hhead := hread k
      rw [cellsRead_cons_same, cellsRead_cons_same] at hhead
      have hrest : rest = rest' := by
        refine ih hrestRise hrestRise' hrestListed hrestListed' fun a => ?_
        by_cases hka : k = a
        · subst hka
          rw [cellsRead_below hrestRise (Nat.lt_succ_self k), cellsRead_below hrestRise' (Nat.lt_succ_self k)]
        · simpa only [cellsRead_cons_ne hka] using hread a
      rw [hhead, hrest]

/-- The parts of the canonical form, by name. -/
theorem Memory.wf_iff {m : Memory} :
    m.wf = true ↔ cellsRiseAbove 0 m.cells = true ∧ (∀ c ∈ m.cells, c.2 ≠ Memory.unlisted) ∧
      (∀ c ∈ m.cells, c.1 < m.size) ∧ m.size ≤ Config.maxMemSize := by
  simp only [Memory.wf, Bool.and_eq_true, List.all_eq_true, decide_eq_true_eq, bne_iff_ne, forall_and, ne_eq, and_assoc]

/-- A canonical memory lists nothing from MEM_SIZE on. -/
theorem Memory.readByte_outside {m : Memory} (h : m.wf = true) {a : Nat} (ha : m.size ≤ a) :
    m.readByte a = Memory.unlisted := by
  obtain ⟨-, -, hinside, -⟩ := Memory.wf_iff.mp h
  exact cellsRead_of_forall_ne fun c hc => ((hinside c hc).trans_le ha).ne

/-- Settles O15: the memories read alike below MEM_SIZE by hypothesis and above it because neither lists anything there, and
canonical lists that read alike are equal. -/
theorem canonicalMemoriesWithEqualBytesAreEqual : Obligations.CanonicalMemoriesWithEqualBytesAreEqual := by
  rintro ⟨size, cells⟩ ⟨size', cells'⟩ hwf hwf' hsize hbytes
  obtain rfl : size = size' := hsize
  obtain ⟨hrise, hlisted, -, -⟩ := Memory.wf_iff.mp hwf
  obtain ⟨hrise', hlisted', -, -⟩ := Memory.wf_iff.mp hwf'
  have hread (a : Nat) : cellsRead cells a = cellsRead cells' a := by
    by_cases ha : a < size
    · exact hbytes a ha
    · have hout := Nat.le_of_not_lt ha
      exact (Memory.readByte_outside hwf hout).trans (Memory.readByte_outside hwf' hout).symm
  exact congrArg (Memory.mk size) (cells_ext hrise hrise' hlisted hlisted' hread)

end Sys2Proof.Machine
end

section
/-! Memory along a step (20_memory.md R50, R53): SW stores its word at its effective address, every other instruction leaves
the memory, and a fetch reads the memory the step left. -/

namespace Sys2Proof

theorem decodeWith_opClass {c : OpcodeTable} {w : Word} {i : Instr} (h : decodeWith c w = .ok i) :
    i.opClass = Codec.opclassWith c w := by
  cases decodesTo_of_decodeWith h with
  | add hc | sub hc | slt hc | addi hc | slli hc | lw hc | sw hc | beq hc | bne hc | blt hc | jal hc | jalr hc =>
    exact hc.symm

/-- SW is the one instruction of its class. -/
theorem decodeWith_store {c : OpcodeTable} {w : Word} {i : Instr} (h : decodeWith c w = .ok i)
    (hclass : Codec.opclassWith c w = .store) : i = .sw (Codec.rs2 w) (Codec.rs1 w) (Codec.rawS w) := by
  cases decodesTo_of_decodeWith h with
  | sw => rfl
  | add hc | sub hc | slt hc | addi hc | slli hc | lw hc | beq hc | bne hc | blt hc | jal hc | jalr hc =>
    simp [hc] at hclass

end Sys2Proof

namespace Sys2Proof.Machine

theorem exec_sw_next {rs2 rs1 : RegIdx} {imm : BitVec 12} {s t : State} (h : exec (.sw rs2 rs1 imm) s = .next t) :
    s.mem.writeWord (s.effectiveAddress rs1 imm) (s.readReg rs2) = some t.mem ∧ t.pc = s.pc + instrSize := by
  obtain ⟨m, hwrite, rfl⟩ := execSw_next h
  exact ⟨hwrite, rfl⟩

theorem exec_next_mem_of_not_store {i : Instr} {s t : State} (hi : i.opClass ≠ .store) (h : exec i s = .next t) :
    t.mem = s.mem := by
  cases i with
  | sw => exact absurd rfl hi
  | lw rd rs1 imm =>
    obtain ⟨v, -, rfl⟩ := execLw_next h
    exact State.writeBack_mem ..
  | add | sub | slt | addi | slli =>
    injection h with h
    subst h
    exact State.writeBack_mem ..
  | beq | bne | blt =>
    injection h with h
    subst h
    exact State.branchIf_mem ..
  | jal | jalr =>
    injection h with h
    subst h
    exact State.linkAndJump_mem ..

/-- Settles O32: what is decoded has the fetched word's class, and SW's write has the frame of `Memory.writeWord_spec`. -/
theorem onlyStoreChangesMemory : Obligations.OnlyStoreChangesMemory := by
  intro c s t w hfetch hstep
  obtain ⟨w', i, hfetch', hdecode, hexec⟩ := stepWith_next_cases hstep
  obtain rfl : w = w' := Option.some.inj (hfetch.symm.trans hfetch')
  constructor
  · intro hclass
    exact exec_next_mem_of_not_store (decodeWith_opClass hdecode ▸ hclass) hexec
  · intro hclass
    obtain rfl := decodeWith_store hdecode hclass
    obtain ⟨hwrite, -⟩ := exec_sw_next hexec
    obtain ⟨hsize, -, hframe⟩ := Memory.writeWord_spec hwrite
    exact ⟨hsize, hframe⟩

/-- Settles O35: a fetch is a word read at the pc, and reads back the word just written; the step's own next fetch is the
one at pc + 4. -/
theorem storeIsSeenByTheNextFetch : Obligations.StoreIsSeenByTheNextFetch := by
  intro rs2 rs1 imm s t hexec
  obtain ⟨hwrite, hpc⟩ := exec_sw_next hexec
  have hstored : t.mem.readWord (s.effectiveAddress rs1 imm) = some (s.readReg rs2) :=
    Memory.readWord_writeWord_same hwrite
  refine ⟨hstored, fun hnext => ?_⟩
  have haddr : t.pc = s.effectiveAddress rs1 imm := hpc.trans hnext.symm
  rw [State.fetch, haddr, hstored]

end Sys2Proof.Machine
end

section
/-! The opcode class and the two directions of the codec (30_encoding.md R81, R82, R87, R92): a class and the constant that
stands for it, the decoder's inversion `DecodesTo` read backwards, and from both the two round trips. -/

namespace Sys2Proof

open Codec

/-! ### The class of a word and its constant -/

/-- The constant that stands for a class; INVALID has none (R82). -/
def OpcodeTable.tag (t : OpcodeTable) : OpClass → Option (BitVec 7)
  | .rType => some t.opRType
  | .iType => some t.opIType
  | .load => some t.opLoad
  | .store => some t.opStore
  | .branch => some t.opBranch
  | .jal => some t.opJal
  | .jalr => some t.opJalr
  | .invalid => none

/-- The seven constants. -/
def OpcodeTable.tags (t : OpcodeTable) : List (BitVec 7) :=
  [t.opRType, t.opIType, t.opLoad, t.opStore, t.opBranch, t.opJal, t.opJalr]

theorem opfield_of_opclassWith {t : OpcodeTable} {w : Word} {k : OpClass} {op : BitVec 7}
    (h : opclassWith t w = k) (htag : t.tag k = some op) : opfield w = op := by
  subst h
  unfold opclassWith at htag
  split_ifs at htag with hr hi hl hs hb hj hjr <;> cases htag <;> assumption

theorem opclassWith_of_opfield {t : OpcodeTable} {w : Word} {k : OpClass} {op : BitVec 7} (ht : t.distinct = true)
    (htag : t.tag k = some op) (h : opfield w = op) : opclassWith t w = k := by
  subst h
  cases k with
  | rType => exact opclassWith_rType t w ht (Option.some.inj htag).symm
  | iType => exact opclassWith_iType t w ht (Option.some.inj htag).symm
  | load => exact opclassWith_load t w ht (Option.some.inj htag).symm
  | store => exact opclassWith_store t w ht (Option.some.inj htag).symm
  | branch => exact opclassWith_branch t w ht (Option.some.inj htag).symm
  | jal => exact opclassWith_jal t w ht (Option.some.inj htag).symm
  | jalr => exact opclassWith_jalr t w ht (Option.some.inj htag).symm
  | invalid => cases htag

theorem opclassWith_eq_iff {t : OpcodeTable} {w : Word} {k : OpClass} {op : BitVec 7} (ht : t.distinct = true)
    (htag : t.tag k = some op) : opclassWith t w = k ↔ opfield w = op :=
  ⟨fun h => opfield_of_opclassWith h htag, opclassWith_of_opfield ht htag⟩

theorem opclassWith_eq_invalid_iff {t : OpcodeTable} {w : Word} : opclassWith t w = .invalid ↔ opfield w ∉ t.tags := by
  unfold opclassWith
  split_ifs <;> simp [OpcodeTable.tags, *]

/-! ### How many of the 128 field values are INVALID -/

/-- Every value of the opcode field, in order. -/
def opfieldValues : List (BitVec 7) := (List.range 128).map (BitVec.ofNat 7)

theorem nodup_opfieldValues : opfieldValues.Nodup := by
  refine List.Nodup.map_on (fun a ha b hb hab => ?_) List.nodup_range
  have := congrArg BitVec.toNat hab
  simp only [List.mem_range, BitVec.toNat_ofNat] at *
  omega

theorem mem_opfieldValues (v : BitVec 7) : v ∈ opfieldValues :=
  List.mem_map.2 ⟨v.toNat, List.mem_range.2 v.isLt, BitVec.ofNat_toNat .. |>.trans (BitVec.setWidth_eq v)⟩

theorem opfield_ofNat (v : Nat) : opfield (BitVec.ofNat 32 v) = BitVec.ofNat 7 v := by
  apply BitVec.eq_of_toNat_eq
  simp only [opfield, BitVec.extractLsb'_toNat, BitVec.toNat_ofNat, Nat.shiftRight_zero]
  omega

theorem OpcodeTable.nodup_tags {t : OpcodeTable} (ht : t.distinct = true) : t.tags.Nodup := by
  simp [OpcodeTable.distinct] at ht
  simp only [OpcodeTable.tags, List.nodup_cons, List.mem_cons]
  grind

/-- The seven constants and the values outside them are all 128 values. -/
theorem length_invalid_opfields {t : OpcodeTable} (ht : t.distinct = true) :
    (opfieldValues.filter (fun v => v ∉ t.tags)).length = 121 := by
  have hperm : (t.tags ++ opfieldValues.filter (fun v => v ∉ t.tags)).Perm opfieldValues := by
    refine (List.perm_ext_iff_of_nodup ?_ nodup_opfieldValues).2 fun v => ?_
    · refine (OpcodeTable.nodup_tags ht).append (nodup_opfieldValues.filter _) fun v hin hout => ?_
      simp_all
    · have := mem_opfieldValues v
      by_cases h : v ∈ t.tags <;> simp [h, this]
  have hlength := hperm.length_eq
  simp only [List.length_append, OpcodeTable.tags, List.length_cons, List.length_nil, opfieldValues, List.length_map,
    List.length_range] at hlength ⊢
  omega

/-- Settles O5: each class is chosen by its constant alone, and a list without repetition of seven of the 128 field values
leaves 121. -/
theorem opcodeClassIsTheMatchingTagOrInvalid : Obligations.OpcodeClassIsTheMatchingTagOrInvalid := by
  intro t ht
  constructor
  · intro w
    exact ⟨opclassWith_eq_iff ht rfl, opclassWith_eq_iff ht rfl, opclassWith_eq_iff ht rfl, opclassWith_eq_iff ht rfl,
      opclassWith_eq_iff ht rfl, opclassWith_eq_iff ht rfl, opclassWith_eq_iff ht rfl, opclassWith_eq_invalid_iff⟩
  · rw [← length_invalid_opfields ht, opfieldValues, List.filter_map, List.length_map]
    refine congrArg List.length (List.filter_congr fun v _ => ?_)
    simp [opclassWith_eq_invalid_iff, opfield_ofNat]

/-! ### The decoder, from the fields of a word -/

/-- `DecodesTo` read backwards. Under the document's constraints no earlier row of the dispatch takes the word. -/
theorem DecodesTo.decodeWith_eq {t : OpcodeTable} {w : Word} {i : Instr} (ht : t.distinct = true)
    (h : DecodesTo t w i) : decodeWith t w = .ok i := by
  simp [OpcodeTable.distinct] at ht
  obtain ⟨⟨⟨⟨-, haddSub⟩, haddi⟩, ⟨hbeq, hbeq'⟩, hbne⟩, hadd⟩ := ht
  cases h with
  | add hc h3 h7 => simp [decodeWith, hc, h3, h7]
  | sub hc h3 h7 => simp [decodeWith, hc, h3, h7, Ne.symm hadd]
  | slt hc h3 => simp [decodeWith, hc, h3, Ne.symm haddSub]
  | slli hc h3 => simp [decodeWith, hc, h3, Ne.symm haddi]
  | bne hc h3 => simp [decodeWith, hc, h3, Ne.symm hbeq]
  | blt hc h3 => simp [decodeWith, hc, h3, Ne.symm hbeq', Ne.symm hbne]
  | addi hc h3 | lw hc h3 | sw hc h3 | beq hc h3 => simp [decodeWith, hc, h3]
  | jal hc | jalr hc => simp [decodeWith, hc]

/-! ### Round trips -/

/-- Every field of the encoding reads back, so that the encoding is a word of the instruction's row. -/
theorem decodesTo_encodeWith {t : OpcodeTable} {i : Instr} (ht : t.distinct = true) (hi : i.wf = true) :
    DecodesTo t (encodeWith t i) i := by
  cases i with
  | add rd rs1 rs2 =>
    simpa [encodeWith, rd_encR, rs1_encR, rs2_encR] using
      DecodesTo.add (Laws.EncodedClass.add rd rs1 rs2 t ht) (funct3_encR ..) (funct7_encR ..)
  | sub rd rs1 rs2 =>
    simpa [encodeWith, rd_encR, rs1_encR, rs2_encR] using
      DecodesTo.sub (Laws.EncodedClass.sub rd rs1 rs2 t ht) (funct3_encR ..) (funct7_encR ..)
  | slt rd rs1 rs2 funct7 =>
    simpa [encodeWith, rd_encR, rs1_encR, rs2_encR, funct7_encR] using
      DecodesTo.slt (Laws.EncodedClass.slt rd rs1 rs2 funct7 t ht) (funct3_encR ..)
  | addi rd rs1 imm =>
    simpa [encodeWith, rd_encI, rs1_encI, rawI_encI] using
      DecodesTo.addi (Laws.EncodedClass.addi rd rs1 imm t ht) (funct3_encI ..)
  | slli rd rs1 imm =>
    simpa [encodeWith, rd_encI, rs1_encI, rawI_encI] using
      DecodesTo.slli (Laws.EncodedClass.slli rd rs1 imm t ht) (funct3_encI ..)
  | lw rd rs1 imm =>
    simpa [encodeWith, rd_encI, rs1_encI, rawI_encI] using
      DecodesTo.lw (Laws.EncodedClass.lw rd rs1 imm t ht) (funct3_encI ..)
  | sw rs2 rs1 imm =>
    simpa [encodeWith, rs1_encS, rs2_encS, rawS_encS] using
      DecodesTo.sw (Laws.EncodedClass.sw rs2 rs1 imm t ht) (funct3_encS ..)
  | beq rs1 rs2 imm =>
    simpa [encodeWith, rs1_encB, rs2_encB, rawB_encB _ _ _ _ _ hi] using
      DecodesTo.beq (Laws.EncodedClass.beq rs1 rs2 imm t ht) (funct3_encB ..)
  | bne rs1 rs2 imm =>
    simpa [encodeWith, rs1_encB, rs2_encB, rawB_encB _ _ _ _ _ hi] using
      DecodesTo.bne (Laws.EncodedClass.bne rs1 rs2 imm t ht) (funct3_encB ..)
  | blt rs1 rs2 imm =>
    simpa [encodeWith, rs1_encB, rs2_encB, rawB_encB _ _ _ _ _ hi] using
      DecodesTo.blt (Laws.EncodedClass.blt rs1 rs2 imm t ht) (funct3_encB ..)
  | jal rd imm =>
    simpa [encodeWith, rd_encJ, rawJ_encJ _ _ _ hi] using DecodesTo.jal (Laws.EncodedClass.jal rd imm t ht)
  | jalr rd rs1 imm funct3 =>
    simpa [encodeWith, rd_encI, rs1_encI, rawI_encI, funct3_encI] using
      DecodesTo.jalr (Laws.EncodedClass.jalr rd rs1 imm funct3 t ht)

theorem decodeWith_encodeWith {t : OpcodeTable} {i : Instr} (ht : t.distinct = true) (hi : i.wf = true) :
    decodeWith t (encodeWith t i) = .ok i :=
  (decodesTo_encodeWith ht hi).decodeWith_eq ht

theorem decodeBytesWith_wordBytes (t : OpcodeTable) (w : Word) (rest : List Byte) :
    decodeBytesWith t (wordBytes w ++ rest) = some (decodeWith t w, rest) := by
  simp [wordBytes, decodeBytesWith, Machine.Codec.wordOfBytes_byteOf]

/-- Settles O2: the encoding is in the instruction's row with the instruction's operands as its fields, and the four bytes
of a word are the word. -/
theorem decodeOfEncodeIsTheInstruction : Obligations.DecodeOfEncodeIsTheInstruction := by
  intro t i ht hi
  refine ⟨decodeWith_encodeWith ht hi, fun rest => ?_⟩
  rw [decodeBytesWith_wordBytes, decodeWith_encodeWith ht hi]

/-- The row of the instruction gives the constants, and a word is the encoding of its own fields. -/
theorem DecodesTo.encodeWith_eq {t : OpcodeTable} {w : Word} {i : Instr} (h : DecodesTo t w i) : encodeWith t i = w := by
  cases h with
  | add hc h3 h7 | sub hc h3 h7 =>
    rw [encodeWith, ← opfield_of_opclassWith hc rfl, ← h3, ← h7]
    exact encR_fields w
  | slt hc h3 =>
    rw [encodeWith, ← opfield_of_opclassWith hc rfl, ← h3]
    exact encR_fields w
  | addi hc h3 | slli hc h3 | lw hc h3 =>
    rw [encodeWith, ← opfield_of_opclassWith hc rfl, ← h3]
    exact encI_fields w
  | sw hc h3 =>
    rw [encodeWith, ← opfield_of_opclassWith hc rfl, ← h3]
    exact encS_fields w
  | beq hc h3 | bne hc h3 | blt hc h3 =>
    rw [encodeWith, ← opfield_of_opclassWith hc rfl, ← h3]
    exact encB_fields w
  | jal hc =>
    rw [encodeWith, ← opfield_of_opclassWith hc rfl]
    exact encJ_fields w
  | jalr hc =>
    rw [encodeWith, ← opfield_of_opclassWith hc rfl]
    exact encI_fields w

/-- Settles O3: what is decoded is well-formed, and its encoding puts the fields of the word back. -/
theorem encodeOfDecodeIsTheWord : Obligations.EncodeOfDecodeIsTheWord :=
  fun _ _ _ h => ⟨decodeWith_wf h, (decodesTo_of_decodeWith h).encodeWith_eq⟩

/-- Both round trips in one: the words of an instruction are the words of the encoder. -/
theorem decodeWith_eq_ok_iff {t : OpcodeTable} {w : Word} {i : Instr} (ht : t.distinct = true) :
    decodeWith t w = .ok i ↔ i.wf = true ∧ encodeWith t i = w := by
  constructor
  · exact encodeOfDecodeIsTheWord t w i
  · rintro ⟨hi, rfl⟩
    exact decodeWith_encodeWith ht hi

end Sys2Proof
end

section
/-! The opcode map as masks and match values, and the words no row takes (30_encoding.md R87 to R90). By the two round trips
the words of a row are the encoder's words as the operands vary, so a row is the set of words with the fields that the
encoder fixes; the mask keeps exactly these fields. -/

namespace Sys2Proof.Codec

/-! ### Masks -/

theorem and_opMask (w : Word) : w &&& 0x0000007F = encR (opfield w) 0 0 0 0 0 := by
  apply BitVec.eq_of_getLsbD_eq
  intro i hi
  simp only [encR, opfield, BitVec.getLsbD_and, BitVec.getLsbD_append, BitVec.getLsbD_extractLsb']
  interval_cases i <;> simp

theorem and_op3Mask (w : Word) : w &&& 0x0000707F = encR (opfield w) 0 (funct3 w) 0 0 0 := by
  apply BitVec.eq_of_getLsbD_eq
  intro i hi
  simp only [encR, opfield, funct3, BitVec.getLsbD_and, BitVec.getLsbD_append, BitVec.getLsbD_extractLsb']
  interval_cases i <;> simp

theorem and_op37Mask (w : Word) : w &&& 0xFE00707F = encR (opfield w) 0 (funct3 w) 0 0 (funct7 w) := by
  apply BitVec.eq_of_getLsbD_eq
  intro i hi
  simp only [encR, opfield, funct3, funct7, BitVec.getLsbD_and, BitVec.getLsbD_append, BitVec.getLsbD_extractLsb']
  interval_cases i <;> simp

theorem encR_inj {op op' : BitVec 7} {d d' : RegIdx} {f3 f3' : BitVec 3} {a a' b b' : RegIdx} {f7 f7' : BitVec 7} :
    encR op d f3 a b f7 = encR op' d' f3' a' b' f7' ↔
      op = op' ∧ d = d' ∧ f3 = f3' ∧ a = a' ∧ b = b' ∧ f7 = f7' := by
  constructor
  · intro h
    refine ⟨?_, ?_, ?_, ?_, ?_, ?_⟩
    · simpa only [opfield_encR] using congrArg opfield h
    · simpa only [rd_encR] using congrArg rd h
    · simpa only [funct3_encR] using congrArg funct3 h
    · simpa only [rs1_encR] using congrArg rs1 h
    · simpa only [rs2_encR] using congrArg rs2 h
    · simpa only [funct7_encR] using congrArg funct7 h
  · rintro ⟨rfl, rfl, rfl, rfl, rfl, rfl⟩
    rfl

/-! ### The words of a format with some fields fixed -/

theorem exists_encR_iff {op : BitVec 7} {f3 : BitVec 3} {f7 : BitVec 7} {w : Word} :
    (∃ d a b, encR op d f3 a b f7 = w) ↔ w &&& 0xFE00707F = encR op 0 f3 0 0 f7 := by
  rw [and_op37Mask, encR_inj]
  constructor
  · rintro ⟨d, a, b, rfl⟩
    exact ⟨opfield_encR .., rfl, funct3_encR .., rfl, rfl, funct7_encR ..⟩
  · rintro ⟨rfl, -, rfl, -, -, rfl⟩
    exact ⟨_, _, _, encR_fields w⟩

theorem exists_encR_anyFunct7_iff {op : BitVec 7} {f3 : BitVec 3} {w : Word} :
    (∃ d a b f7, encR op d f3 a b f7 = w) ↔ w &&& 0x0000707F = encR op 0 f3 0 0 0 := by
  rw [and_op3Mask, encR_inj]
  constructor
  · rintro ⟨d, a, b, f7, rfl⟩
    exact ⟨opfield_encR .., rfl, funct3_encR .., rfl, rfl, rfl⟩
  · rintro ⟨rfl, -, rfl, -⟩
    exact ⟨_, _, _, _, encR_fields w⟩

theorem exists_encI_iff {op : BitVec 7} {f3 : BitVec 3} {w : Word} :
    (∃ d a imm, encI op d f3 a imm = w) ↔ w &&& 0x0000707F = encR op 0 f3 0 0 0 := by
  rw [and_op3Mask, encR_inj]
  constructor
  · rintro ⟨d, a, imm, rfl⟩
    exact ⟨opfield_encI .., rfl, funct3_encI .., rfl, rfl, rfl⟩
  · rintro ⟨rfl, -, rfl, -⟩
    exact ⟨_, _, _, encI_fields w⟩

theorem exists_encI_anyFunct3_iff {op : BitVec 7} {w : Word} :
    (∃ d a imm f3, encI op d f3 a imm = w) ↔ w &&& 0x0000007F = encR op 0 0 0 0 0 := by
  rw [and_opMask, encR_inj]
  constructor
  · rintro ⟨d, a, imm, f3, rfl⟩
    exact ⟨opfield_encI .., rfl, rfl, rfl, rfl, rfl⟩
  · rintro ⟨rfl, -⟩
    exact ⟨_, _, _, _, encI_fields w⟩

theorem exists_encS_iff {op : BitVec 7} {f3 : BitVec 3} {w : Word} :
    (∃ b a imm, encS op f3 a b imm = w) ↔ w &&& 0x0000707F = encR op 0 f3 0 0 0 := by
  rw [and_op3Mask, encR_inj]
  constructor
  · rintro ⟨b, a, imm, rfl⟩
    exact ⟨opfield_encS .., rfl, funct3_encS .., rfl, rfl, rfl⟩
  · rintro ⟨rfl, -, rfl, -⟩
    exact ⟨_, _, _, encS_fields w⟩

theorem exists_encB_iff {op : BitVec 7} {f3 : BitVec 3} {w : Word} :
    (∃ a b imm, evenImm imm = true ∧ encB op f3 a b imm = w) ↔ w &&& 0x0000707F = encR op 0 f3 0 0 0 := by
  rw [and_op3Mask, encR_inj]
  constructor
  · rintro ⟨a, b, imm, -, rfl⟩
    exact ⟨opfield_encB .., rfl, funct3_encB .., rfl, rfl, rfl⟩
  · rintro ⟨rfl, -, rfl, -⟩
    exact ⟨_, _, _, evenImm_rawB w, encB_fields w⟩

theorem exists_encJ_iff {op : BitVec 7} {w : Word} :
    (∃ d imm, evenImm imm = true ∧ encJ op d imm = w) ↔ w &&& 0x0000007F = encR op 0 0 0 0 0 := by
  rw [and_opMask, encR_inj]
  constructor
  · rintro ⟨d, imm, -, rfl⟩
    exact ⟨opfield_encJ .., rfl, rfl, rfl, rfl, rfl⟩
  · rintro ⟨rfl, -⟩
    exact ⟨_, _, evenImm_rawJ w, encJ_fields w⟩

end Sys2Proof.Codec

namespace Sys2Proof

open Codec

theorem distinct_opcodes : opcodes.distinct = true := by decide

/-- Settles O4: each match value is the encoder's word with zero in every field that the mask drops. -/
theorem opcodeMapByMaskAndMatch : Obligations.OpcodeMapByMaskAndMatch := by
  intro w
  simp only [decode, decodeWith_eq_ok_iff distinct_opcodes, Instr.wf, encodeWith, true_and]
  exact ⟨exists_encR_iff, exists_encR_iff, exists_encR_anyFunct7_iff, exists_encI_iff, exists_encI_iff, exists_encI_iff,
    exists_encS_iff, exists_encB_iff, exists_encB_iff, exists_encB_iff, exists_encJ_iff, exists_encI_anyFunct3_iff⟩

/-- Settles O1: the words of section 2.7 are the encodings of their source lines. -/
theorem specWordsDecode : Obligations.SpecWordsDecode := by
  unfold Obligations.SpecWordsDecode
  simp only [decode, decodeWith_eq_ok_iff distinct_opcodes]
  decide

/-! ### Rejected words -/

theorem decodeWith_eq_invalidOpcode_iff {t : OpcodeTable} {w : Word} :
    decodeWith t w = .invalidOpcode ↔ opclassWith t w = .invalid := by
  unfold decodeWith
  cases opclassWith t w with
  | rType | iType | load | store | branch => grind
  | jal | jalr | invalid => simp

theorem decodeWith_eq_unimplemented_iff {t : OpcodeTable} {w : Word} : decodeWith t w = .unimplemented ↔
    (opclassWith t w = .rType ∧ funct3 w ≠ t.f3Slt ∧
      (funct3 w = t.f3AddSub → funct7 w ≠ t.f7Add ∧ funct7 w ≠ t.f7Sub)) ∨
    (opclassWith t w = .iType ∧ funct3 w ≠ t.f3Addi ∧ funct3 w ≠ t.f3Slli) ∨
    (opclassWith t w = .load ∧ funct3 w ≠ t.f3Lw) ∨
    (opclassWith t w = .store ∧ funct3 w ≠ t.f3Sw) ∨
    (opclassWith t w = .branch ∧ funct3 w ≠ t.f3Beq ∧ funct3 w ≠ t.f3Bne ∧ funct3 w ≠ t.f3Blt) := by
  unfold decodeWith
  cases opclassWith t w with
  | rType => simp; grind
  | iType | branch => simp; grind
  | load | store | jal | jalr | invalid => simp

theorem opfield_eq_iff {w : Word} {v : BitVec 7} : opfield w = v ↔ w.toNat % 128 = v.toNat := by
  simp [opfield, ← BitVec.toNat_inj]

/-- Settles O6: the constants compared are numbers, and a listed set of funct3 values is the complement of the others. -/
theorem rejectedWordsExhaustively : Obligations.RejectedWordsExhaustively := by
  intro w
  have hopcode (v : BitVec 7) {k : OpClass} (htag : opcodes.tag k = some v) :
      opclassWith opcodes w = k ↔ w.toNat % 128 = v.toNat :=
    (opclassWith_eq_iff distinct_opcodes htag).trans opfield_eq_iff
  have hrType (f : BitVec 3) (g : BitVec 7) : (f ≠ 2 ∧ (f = 0 → g ≠ 0 ∧ g ≠ 32)) ↔
      (f ∈ [1, 3, 4, 5, 6, 7] ∨ f = 0 ∧ g ∉ [0, 32]) := by
    have hlist : f ∈ [1, 3, 4, 5, 6, 7] ↔ f ≠ 0 ∧ f ≠ 2 := by revert f; decide
    grind
  have hiType (f : BitVec 3) : (f ≠ 0 ∧ f ≠ 1) ↔ f ∈ [2, 3, 4, 5, 6, 7] := by revert f; decide
  have hbranch (f : BitVec 3) : (f ≠ 0 ∧ f ≠ 1 ∧ f ≠ 2) ↔ f ∈ [3, 4, 5, 6, 7] := by revert f; decide
  constructor
  · rw [decode, decodeWith_eq_invalidOpcode_iff, opclassWith_eq_invalid_iff]
    simp only [OpcodeTable.tags, List.mem_cons, List.not_mem_nil, or_false, opfield_eq_iff]
    exact not_congr (by simp [opcodes]; tauto)
  · exact decodeWith_eq_unimplemented_iff.trans
      (or_congr (and_congr (hopcode 0x33 rfl) (hrType _ _))
        (or_congr (and_congr (hopcode 0x13 rfl) (hiType _))
          (or_congr (and_congr (hopcode 0x03 rfl) Iff.rfl)
            (or_congr (and_congr (hopcode 0x23 rfl) Iff.rfl) (and_congr (hopcode 0x63 rfl) (hbranch _))))))

end Sys2Proof
end

section
/-! Immediates as integers (30_encoding.md R68 to R72): the sign extension of a field has the field's signed value, and a
field cut from the word is the sum of its pieces, bit 31 of the word with the weight of the sign. -/

namespace Sys2Proof.Codec

theorem toInt_sext32 {n : Nat} (v : BitVec n) (hn : n ≤ 32) : (sext32 v).toInt = v.toInt :=
  BitVec.toInt_signExtend_of_le hn

theorem getLsbD_sext32 {n : Nat} (v : BitVec n) {i : Nat} (hi : i < 32) :
    (sext32 v).getLsbD i = if i < n then v.getLsbD i else v.getLsbD (n - 1) := by
  rw [sext32, BitVec.getLsbD_signExtend, BitVec.msb_eq_getLsbD_last, decide_eq_true hi, Bool.true_and]

/-- Settles O7: a field's top bit fills the bits above it, and counts -2^n where the field is read as signed. -/
theorem signExtensionOfAField : Obligations.SignExtensionOfAField := by
  refine ⟨fun n v _ hn => ⟨fun i => getLsbD_sext32 v, ?_⟩, fun w => ⟨rfl, rfl, rfl, rfl⟩⟩
  rw [toInt_sext32 v hn, BitVec.toInt_eq_msb_cond, BitVec.msb_eq_getLsbD_last]
  push_cast
  rfl

/-! ### A field with its sign bit apart -/

theorem toNat_append_eq_add {m n : Nat} (a : BitVec m) (b : BitVec n) : (a ++ b).toNat = a.toNat * 2 ^ n + b.toNat := by
  rw [BitVec.toNat_append, ← Nat.shiftLeft_add_eq_or_of_lt b.isLt, Nat.shiftLeft_eq]

theorem toInt_of_toNat_eq {n : Nat} {v : BitVec (n + 1)} {sign rest : Nat} (hv : v.toNat = sign * 2 ^ n + rest)
    (hsign : sign < 2) (hrest : rest < 2 ^ n) : v.toInt = rest - 2 ^ n * (sign : Int) := by
  rw [BitVec.toInt_eq_toNat_cond, hv]
  have hpow : (2 : Int) ^ (n + 1) = 2 * 2 ^ n := by ring
  obtain rfl | rfl : sign = 0 ∨ sign = 1 := by omega
  · rw [if_pos (by omega)]
    simp
  · rw [if_neg (by omega)]
    push_cast
    rw [hpow]
    ring

theorem toNat_rawI (w : Word) : (rawI w).toNat = w.toNat / 2 ^ 31 * 2 ^ 11 + w.toNat / 2 ^ 20 % 2 ^ 11 := by
  have hw := w.isLt
  simp only [rawI, BitVec.extractLsb'_toNat, Nat.shiftRight_eq_div_pow]
  omega

theorem toNat_rawS (w : Word) : (rawS w).toNat =
    w.toNat / 2 ^ 31 * 2 ^ 11 + (w.toNat / 2 ^ 25 % 2 ^ 6 * 2 ^ 5 + w.toNat / 2 ^ 7 % 2 ^ 5) := by
  have hw := w.isLt
  simp only [rawS, toNat_append_eq_add, BitVec.extractLsb'_toNat, Nat.shiftRight_eq_div_pow]
  omega

theorem toNat_rawB (w : Word) : (rawB w).toNat = w.toNat / 2 ^ 31 * 2 ^ 12 +
    (w.toNat / 2 ^ 7 % 2 * 2 ^ 11 + w.toNat / 2 ^ 25 % 2 ^ 6 * 2 ^ 5 + w.toNat / 2 ^ 8 % 2 ^ 4 * 2) := by
  have hw := w.isLt
  simp only [rawB, toNat_append_eq_add, BitVec.extractLsb'_toNat, Nat.shiftRight_eq_div_pow, BitVec.toNat_ofNat]
  omega

theorem toNat_rawJ (w : Word) : (rawJ w).toNat = w.toNat / 2 ^ 31 * 2 ^ 20 +
    (w.toNat / 2 ^ 12 % 2 ^ 8 * 2 ^ 12 + w.toNat / 2 ^ 20 % 2 * 2 ^ 11 + w.toNat / 2 ^ 21 % 2 ^ 10 * 2) := by
  have hw := w.isLt
  simp only [rawJ, toNat_append_eq_add, BitVec.extractLsb'_toNat, Nat.shiftRight_eq_div_pow, BitVec.toNat_ofNat]
  omega

/-- Settles O8: the fields are at most 32 bits wide, so that the extension keeps their signed values; ranges and parity are
read off the sums. -/
theorem immediateValuesFromTheWord : Obligations.ImmediateValuesFromTheWord := by
  intro w
  have hw := w.isLt
  have hI := (toInt_sext32 _ (by decide)).trans (toInt_of_toNat_eq (toNat_rawI w) (by omega) (by omega))
  have hS := (toInt_sext32 _ (by decide)).trans (toInt_of_toNat_eq (toNat_rawS w) (by omega) (by omega))
  have hB := (toInt_sext32 _ (by decide)).trans (toInt_of_toNat_eq (toNat_rawB w) (by omega) (by omega))
  have hJ := (toInt_sext32 _ (by decide)).trans (toInt_of_toNat_eq (toNat_rawJ w) (by omega) (by omega))
  unfold immI immS immB immJ
  rw [hI, hS, hB, hJ]
  refine ⟨⟨rfl, ?_⟩, ⟨rfl, ?_⟩, ⟨rfl, ?_⟩, ⟨rfl, ?_⟩⟩ <;> omega

end Sys2Proof.Codec
end

section
/-! The mutators (30_encoding.md R74 to R81). On a word given by the R format's six fields, which every word is
(`encR_fields`), a plain mutator replaces one field and an immediate mutator gives the word of its own format; what the
mutators do to each other, to the accessors and to a whole word follows from these ten equations. -/

namespace Sys2Proof.Codec

/-! ### A mutator on a word of six fields -/

theorem setOpcode_encR (op v : BitVec 7) (d : RegIdx) (f3 : BitVec 3) (a b : RegIdx) (f7 : BitVec 7) :
    setOpcode (encR op d f3 a b f7) v = encR v d f3 a b f7 := by
  apply BitVec.eq_of_getLsbD_eq
  intro i hi
  simp only [setOpcode, encR, BitVec.getLsbD_append, BitVec.getLsbD_extractLsb']
  interval_cases i <;> simp

theorem setRd_encR (op : BitVec 7) (d v : RegIdx) (f3 : BitVec 3) (a b : RegIdx) (f7 : BitVec 7) :
    setRd (encR op d f3 a b f7) v = encR op v f3 a b f7 := by
  apply BitVec.eq_of_getLsbD_eq
  intro i hi
  simp only [setRd, encR, BitVec.getLsbD_append, BitVec.getLsbD_extractLsb']
  interval_cases i <;> simp

theorem setFunct3_encR (op : BitVec 7) (d : RegIdx) (f3 v : BitVec 3) (a b : RegIdx) (f7 : BitVec 7) :
    setFunct3 (encR op d f3 a b f7) v = encR op d v a b f7 := by
  apply BitVec.eq_of_getLsbD_eq
  intro i hi
  simp only [setFunct3, encR, BitVec.getLsbD_append, BitVec.getLsbD_extractLsb']
  interval_cases i <;> simp

theorem setRs1_encR (op : BitVec 7) (d : RegIdx) (f3 : BitVec 3) (a b v : RegIdx) (f7 : BitVec 7) :
    setRs1 (encR op d f3 a b f7) v = encR op d f3 v b f7 := by
  apply BitVec.eq_of_getLsbD_eq
  intro i hi
  simp only [setRs1, encR, BitVec.getLsbD_append, BitVec.getLsbD_extractLsb']
  interval_cases i <;> simp

theorem setRs2_encR (op : BitVec 7) (d : RegIdx) (f3 : BitVec 3) (a b v : RegIdx) (f7 : BitVec 7) :
    setRs2 (encR op d f3 a b f7) v = encR op d f3 a v f7 := by
  apply BitVec.eq_of_getLsbD_eq
  intro i hi
  simp only [setRs2, encR, BitVec.getLsbD_append, BitVec.getLsbD_extractLsb']
  interval_cases i <;> simp

theorem setFunct7_encR (op : BitVec 7) (d : RegIdx) (f3 : BitVec 3) (a b : RegIdx) (f7 v : BitVec 7) :
    setFunct7 (encR op d f3 a b f7) v = encR op d f3 a b v := by
  apply BitVec.eq_of_getLsbD_eq
  intro i hi
  simp only [setFunct7, encR, BitVec.getLsbD_append, BitVec.getLsbD_extractLsb']
  interval_cases i <;> simp

theorem setImmI_encR (op : BitVec 7) (d : RegIdx) (f3 : BitVec 3) (a b : RegIdx) (f7 : BitVec 7) (imm : BitVec 12) :
    setImmI (encR op d f3 a b f7) imm = encI op d f3 a imm := by
  apply BitVec.eq_of_getLsbD_eq
  intro i hi
  simp only [setImmI, encR, encI, BitVec.getLsbD_append, BitVec.getLsbD_extractLsb']
  interval_cases i <;> simp

theorem setImmS_encR (op : BitVec 7) (d : RegIdx) (f3 : BitVec 3) (a b : RegIdx) (f7 : BitVec 7) (imm : BitVec 12) :
    setImmS (encR op d f3 a b f7) imm = encS op f3 a b imm := by
  apply BitVec.eq_of_getLsbD_eq
  intro i hi
  simp only [setImmS, encR, encS, BitVec.getLsbD_append, BitVec.getLsbD_extractLsb']
  interval_cases i <;> simp

theorem setImmB_encR (op : BitVec 7) (d : RegIdx) (f3 : BitVec 3) (a b : RegIdx) (f7 : BitVec 7) (imm : BitVec 13) :
    setImmB (encR op d f3 a b f7) imm = encB op f3 a b imm := by
  apply BitVec.eq_of_getLsbD_eq
  intro i hi
  simp only [setImmB, encR, encB, BitVec.getLsbD_append, BitVec.getLsbD_extractLsb']
  interval_cases i <;> simp

theorem setImmJ_encR (op : BitVec 7) (d : RegIdx) (f3 : BitVec 3) (a b : RegIdx) (f7 : BitVec 7) (imm : BitVec 21) :
    setImmJ (encR op d f3 a b f7) imm = encJ op d imm := by
  apply BitVec.eq_of_getLsbD_eq
  intro i hi
  simp only [setImmJ, encR, encJ, BitVec.getLsbD_append, BitVec.getLsbD_extractLsb']
  interval_cases i <;> simp

/-- Settles O11: whatever the starting word's fields, the chain replaces all that the format keeps. -/
theorem encodersAreMutatorChains : Obligations.EncodersAreMutatorChains := by
  intro w op d f3 a b
  rw [← encR_fields w]
  simp only [setOpcode_encR, setRd_encR, setFunct3_encR, setRs1_encR, setRs2_encR, setFunct7_encR, setImmI_encR,
    setImmS_encR, setImmB_encR, setImmJ_encR, implies_true, and_true]

/-! ### Bit by bit -/

theorem getLsbD_replaceHigh {len low : Nat} (w : Word) (v : BitVec len) (i : Nat) :
    (v ++ w.extractLsb' 0 low).getLsbD i = if low ≤ i then v.getLsbD (i - low) else w.getLsbD i := by
  rw [BitVec.getLsbD_append, BitVec.getLsbD_extractLsb', Nat.zero_add]
  grind

theorem getLsbD_replaceLow {len high : Nat} (w : Word) (v : BitVec len) {i : Nat} (hi : i < len + high) :
    (w.extractLsb' len high ++ v).getLsbD i = if i < len then v.getLsbD i else w.getLsbD i := by
  rw [BitVec.getLsbD_append, BitVec.getLsbD_extractLsb']
  split
  · rfl
  · rw [decide_eq_true (by omega), Bool.true_and, Nat.add_sub_cancel' (by omega)]

/-- The three pieces of most plain mutators: the bits above the field, the new field, the bits below it. -/
theorem getLsbD_replaceField {low len high : Nat} (w : Word) (v : BitVec len) {i : Nat} (hi : i < low + len + high) :
    (w.extractLsb' (low + len) high ++ v ++ w.extractLsb' 0 low).getLsbD i =
      if low ≤ i ∧ i < low + len then v.getLsbD (i - low) else w.getLsbD i := by
  rw [getLsbD_replaceHigh]
  by_cases hlow : low ≤ i
  · rw [if_pos hlow, BitVec.getLsbD_append, BitVec.getLsbD_extractLsb']
    by_cases hfield : i - low < len
    · rw [if_pos hfield, if_pos (by omega)]
    · rw [if_neg hfield, if_neg (by omega), decide_eq_true (by omega), Bool.true_and]
      congr 1
      omega
  · rw [if_neg hlow, if_neg (by omega)]

theorem getLsbD_setImmS (w : Word) (v : BitVec 12) {i : Nat} (hi : i < 32) : (setImmS w v).getLsbD i =
    if 7 ≤ i ∧ i < 12 then v.getLsbD (i - 7) else if 25 ≤ i then v.getLsbD (i - 20) else w.getLsbD i := by
  simp only [setImmS, BitVec.getLsbD_append, BitVec.getLsbD_extractLsb']
  grind

theorem getLsbD_setImmB (w : Word) (v : BitVec 13) {i : Nat} (hi : i < 32) : (setImmB w v).getLsbD i =
    if i = 31 then v.getLsbD 12 else if 25 ≤ i then v.getLsbD (i - 20)
    else if 8 ≤ i ∧ i < 12 then v.getLsbD (i - 7) else if i = 7 then v.getLsbD 11 else w.getLsbD i := by
  simp only [setImmB, BitVec.getLsbD_append, BitVec.getLsbD_extractLsb']
  interval_cases i <;> simp

theorem getLsbD_setImmJ (w : Word) (v : BitVec 21) {i : Nat} (hi : i < 32) : (setImmJ w v).getLsbD i =
    if i = 31 then v.getLsbD 20 else if 21 ≤ i then v.getLsbD (i - 20)
    else if i = 20 then v.getLsbD 11 else if 12 ≤ i then v.getLsbD i else w.getLsbD i := by
  simp only [setImmJ, BitVec.getLsbD_append, BitVec.getLsbD_extractLsb']
  interval_cases i <;> simp

/-- Settles O10: bits by the pieces of each mutator; a plain field is read back from the word of six fields. -/
theorem mutatorsReplaceExactlyTheirBits : Obligations.MutatorsReplaceExactlyTheirBits := by
  intro w i hi
  refine ⟨fun v => ⟨getLsbD_replaceLow w v hi, ?_⟩, fun v => ⟨getLsbD_replaceField (low := 7) w v hi, ?_⟩,
    fun v => ⟨getLsbD_replaceField (low := 12) w v hi, ?_⟩, fun v => ⟨getLsbD_replaceField (low := 15) w v hi, ?_⟩,
    fun v => ⟨getLsbD_replaceField (low := 20) w v hi, ?_⟩, fun v => ⟨getLsbD_replaceHigh w v i, ?_⟩,
    fun v => getLsbD_replaceHigh w v i, fun v => getLsbD_setImmS w v hi, fun v => getLsbD_setImmB w v hi,
    fun v => getLsbD_setImmJ w v hi⟩ <;> rw [← encR_fields w]
  · rw [setOpcode_encR, opfield_encR]
  · rw [setRd_encR, rd_encR]
  · rw [setFunct3_encR, funct3_encR]
  · rw [setRs1_encR, rs1_encR]
  · rw [setRs2_encR, rs2_encR]
  · rw [setFunct7_encR, funct7_encR]

end Sys2Proof.Codec
end

section
/-! Immediates set and read back (30_encoding.md R80), and the words the assembler's builder gives (R107 to R109). Both turn
on one fact: the B and J formats store no bit 0, so an offset and the offset with bit 0 cleared have the same word. -/

namespace Sys2Proof.Codec

/-! ### Offsets with bit 0 cleared (90_conflicts.md C1) -/

theorem toNat_ofInt_sub_emod_two (n : Nat) (x : Int) :
    (BitVec.ofInt (n + 1) (x - x % 2)).toNat = (BitVec.ofInt (n + 1) x).toNat / 2 * 2 := by
  simp only [BitVec.toNat_ofInt]
  generalize hM : ((2 ^ (n + 1) : Nat) : Int) = M
  have hpos : 0 < M := by rw [← hM]; positivity
  have hdvd : (2 : Int) ∣ M := by rw [← hM]; push_cast; exact dvd_pow_self 2 (by omega)
  have hparity : x % M % 2 = x % 2 := Int.emod_emod_of_dvd x hdvd
  have hnonneg := Int.emod_nonneg x hpos.ne'
  have hlt := Int.emod_lt_of_pos x hpos
  have hcleared : (x - x % 2) % M = x % M - x % 2 := by
    calc (x - x % 2) % M = (x % M - x % 2 + M * (x / M)) % M := by
          congr 1
          linarith [Int.emod_add_mul_ediv x M]
      _ = (x % M - x % 2) % M := Int.add_mul_emod_self_left ..
      _ = x % M - x % 2 := Int.emod_eq_of_lt (by omega) (by omega)
  omega

theorem evenImm_ofInt_sub_emod_two (n : Nat) (x : Int) : evenImm (BitVec.ofInt (n + 1) (x - x % 2)) = true := by
  rw [evenImm_iff_toNat, toNat_ofInt_sub_emod_two]
  omega

/-- Every piece of a field that leaves bit 0 out. -/
theorem extractLsb'_ofInt_sub_emod_two (n : Nat) (x : Int) (start len : Nat) :
    (BitVec.ofInt (n + 1) (x - x % 2)).extractLsb' (start + 1) len =
      (BitVec.ofInt (n + 1) x).extractLsb' (start + 1) len := by
  apply BitVec.eq_of_toNat_eq
  simp only [BitVec.extractLsb'_toNat, toNat_ofInt_sub_emod_two, Nat.add_comm start 1, Nat.shiftRight_add]
  simp only [Nat.shiftRight_eq_div_pow, pow_one, Nat.mul_div_cancel _ (Nat.zero_lt_two)]

theorem encB_sub_emod_two (op : BitVec 7) (f3 : BitVec 3) (a b : RegIdx) (x : Int) :
    encB op f3 a b (BitVec.ofInt 13 (x - x % 2)) = encB op f3 a b (BitVec.ofInt 13 x) := by
  simp only [encB, extractLsb'_ofInt_sub_emod_two]

theorem encJ_sub_emod_two (op : BitVec 7) (d : RegIdx) (x : Int) :
    encJ op d (BitVec.ofInt 21 (x - x % 2)) = encJ op d (BitVec.ofInt 21 x) := by
  simp only [encJ, extractLsb'_ofInt_sub_emod_two]

/-! ### Immediates set in any word -/

theorem setImmI_eq_encI (w : Word) (imm : BitVec 12) :
    setImmI w imm = encI (opfield w) (rd w) (funct3 w) (rs1 w) imm := by
  rw [← setImmI_encR, encR_fields]

theorem setImmS_eq_encS (w : Word) (imm : BitVec 12) :
    setImmS w imm = encS (opfield w) (funct3 w) (rs1 w) (rs2 w) imm := by
  rw [← setImmS_encR, encR_fields]

theorem setImmB_eq_encB (w : Word) (imm : BitVec 13) :
    setImmB w imm = encB (opfield w) (funct3 w) (rs1 w) (rs2 w) imm := by
  rw [← setImmB_encR, encR_fields]

theorem setImmJ_eq_encJ (w : Word) (imm : BitVec 21) : setImmJ w imm = encJ (opfield w) (rd w) imm := by
  rw [← setImmJ_encR, encR_fields]

theorem setWidth_sext32 {n : Nat} (v : BitVec n) (hn : n ≤ 32) : (sext32 v).setWidth n = v := by
  apply BitVec.eq_of_getLsbD_eq
  intro i hi
  rw [BitVec.getLsbD_setWidth, getLsbD_sext32 v (by omega), if_pos hi, decide_eq_true hi, Bool.true_and]

theorem toInt_sext32_ofInt {n : Nat} (hn : n + 1 ≤ 32) {x : Int} (hlow : -2 ^ n ≤ x) (hhigh : x < 2 ^ n) :
    (sext32 (BitVec.ofInt (n + 1) x)).toInt = x := by
  rw [toInt_sext32 _ hn, BitVec.toInt_ofInt_eq_self (by omega) hlow hhigh]

/-- Settles O9: the word with the immediate set is a word of the immediate's format. -/
theorem immediateRoundTrip : Obligations.ImmediateRoundTrip := by
  refine ⟨fun w x hlow hhigh => ?_, fun w x hlow hhigh => ?_, fun w x hlow hhigh => ?_, fun w x hlow hhigh => ?_,
    fun w => ⟨?_, ?_, ?_, ?_⟩⟩
  · rw [setImmI_eq_encI, immI, rawI_encI, toInt_sext32_ofInt (by decide) (by omega) (by omega)]
  · rw [setImmS_eq_encS, immS, rawS_encS, toInt_sext32_ofInt (by decide) (by omega) (by omega)]
  · rw [setImmB_eq_encB, ← encB_sub_emod_two, immB, rawB_encB _ _ _ _ _ (evenImm_ofInt_sub_emod_two ..),
      toInt_sext32_ofInt (by decide) (by omega) (by omega)]
  · rw [setImmJ_eq_encJ, ← encJ_sub_emod_two, immJ, rawJ_encJ _ _ _ (evenImm_ofInt_sub_emod_two ..),
      toInt_sext32_ofInt (by decide) (by omega) (by omega)]
  · rw [immI, setWidth_sext32 _ (by decide), setImmI_eq_encI, encI_fields]
  · rw [immS, setWidth_sext32 _ (by decide), setImmS_eq_encS, encS_fields]
  · rw [immB, setWidth_sext32 _ (by decide), setImmB_eq_encB, encB_fields]
  · rw [immJ, setWidth_sext32 _ (by decide), setImmJ_eq_encJ, encJ_fields]

end Sys2Proof.Codec

namespace Sys2Proof.Asm

open Codec

/-! ### The builder -/

theorem checked_eq_ok_iff {ok : Bool} {v w : Word} : checked ok v = .ok w ↔ ok = true ∧ v = w := by
  cases ok <;> simp [checked]

theorem checked_eq_error_iff {ok : Bool} {v : Word} : checked ok v = .error .immediateOutOfRange ↔ ok = false := by
  cases ok <;> simp [checked]

theorem inRange_eq_true_iff {low high x : Int} : inRange low high x = true ↔ low ≤ x ∧ x ≤ high := by
  simp [inRange]

theorem inRange_eq_false_iff {low high x : Int} : inRange low high x = false ↔ x < low ∨ high < x := by
  rw [← Bool.not_eq_true, inRange_eq_true_iff]
  omega

/-- Settles O53: a range-checked line fails exactly where the range's test does. -/
theorem builderRangeChecks : Obligations.BuilderRangeChecks := by
  intro c a b x
  simp only [build, checked_eq_error_iff, fitsI, fitsShift, fitsB, fitsJ, inRange_eq_false_iff]
  norm_num

/-- The builder's word is the encoding of the line's instruction. -/
theorem encodeWith_instr_of_build {c : OpcodeTable} {l : Line} {w : Word} (h : build c l = .ok w) :
    encodeWith c l.instr = w := by
  cases l with
  | add | sub | slt => exact Except.ok.inj h
  | addi | slli | lw | sw | jalr => exact (checked_eq_ok_iff.1 h).2
  | beq | bne | blt => exact (encB_sub_emod_two ..).trans (checked_eq_ok_iff.1 h).2
  | jal => exact (encJ_sub_emod_two ..).trans (checked_eq_ok_iff.1 h).2

theorem wf_instr (l : Line) : l.instr.wf = true := by
  cases l with
  | add | sub | slt | addi | slli | lw | sw | jalr => rfl
  | beq | bne | blt | jal => exact evenImm_ofInt_sub_emod_two ..

theorem extractLsb'_ofInt_shamt {x : Int} (hlow : 0 ≤ x) (hhigh : x ≤ 31) :
    (BitVec.ofInt 12 x).extractLsb' 5 7 = 0 := by
  apply BitVec.eq_of_toNat_eq
  simp only [BitVec.extractLsb'_toNat, BitVec.toNat_ofInt, Nat.shiftRight_eq_div_pow, BitVec.ofNat_eq_ofNat,
    BitVec.toNat_ofNat]
  omega

theorem canonical_instr_of_build {c : OpcodeTable} {l : Line} {w : Word} (h : build c l = .ok w) :
    l.instr.canonical = true := by
  cases l with
  | slli rd rs1 shamt =>
    obtain ⟨hfits, -⟩ := checked_eq_ok_iff.1 h
    obtain ⟨hlow, hhigh⟩ := inRange_eq_true_iff.1 hfits
    exact beq_iff_eq.2 (extractLsb'_ofInt_shamt hlow hhigh)
  | add | sub | slt | addi | lw | sw | beq | bne | blt | jal | jalr => rfl

/-- Settles O52: the builder's word is an encoding, and decodes as one. -/
theorem assembledWordDecodesToItsLine : Obligations.AssembledWordDecodesToItsLine := by
  intro c l w hc h
  refine ⟨?_, wf_instr l, canonical_instr_of_build h⟩
  rw [← encodeWith_instr_of_build h, decodeWith_encodeWith hc (wf_instr l)]

end Sys2Proof.Asm
end

section
/-! The two passes of the assembler (30_encoding.md R98 to R100, R105, R110 to R112). Pass 1 only appends, to the Label Map
and to the instruction lines, so that what a line adds is read off the state in which the line is reached; pass 2 is line by
line. -/

namespace Sys2Proof.Asm

/-! ### Names are no numerals -/

theorem isDigit_of_isNameStart {c : Char} (h : isNameStart c = true) : c.isDigit = false ∧ c ≠ '-' := by
  have hrange : (65 ≤ c.val.toNat ∧ c.val.toNat ≤ 90) ∨ (97 ≤ c.val.toNat ∧ c.val.toNat ≤ 122) ∨ c.val.toNat = 95 := by
    simp only [isNameStart, Char.isAlpha, Char.isUpper, Char.isLower, Bool.or_eq_true, Bool.and_eq_true,
      decide_eq_true_eq, ge_iff_le, UInt32.le_iff_toNat_le] at h
    obtain (h | h) | rfl := h
    · exact .inl h
    · exact .inr (.inl h)
    · exact .inr (.inr rfl)
  constructor
  · rw [Char.isDigit, Bool.and_eq_false_iff, decide_eq_false_iff_not, decide_eq_false_iff_not, ge_iff_le,
      UInt32.le_iff_toNat_le, UInt32.le_iff_toNat_le]
    right
    exact fun hle => by have : c.val.toNat ≤ 57 := hle; omega
  · rintro rfl
    exact absurd hrange (by decide)

theorem numeral_of_isName {t : Text} (h : isName t = true) : numeral t = none := by
  cases t with
  | nil => cases h
  | cons c rest =>
    obtain ⟨hstart, -⟩ := Bool.and_eq_true_iff.1 h
    obtain ⟨hdigit, hminus⟩ := isDigit_of_isNameStart hstart
    have hzero : c ≠ '0' := by rintro rfl; exact absurd hdigit (by decide)
    simp [numeral, decimal, digitsValue, hminus, hzero, hdigit]

theorem targetOperand_of_labelAddress {labels : LabelMap} {name : Text} {address : Nat} (hname : isName name = true)
    (h : labelAddress labels name = some address) (idx : Nat) :
    targetOperand labels idx name = .ok (.offset ((address : Int) - 4 * (idx : Int))) := by
  simp [targetOperand, numeral_of_isName hname, h]

/-! ### What one line adds in pass 1 -/

theorem labelAddress_mono {labels more : LabelMap} {name : Text} {address : Nat} (hmore : labels <+: more)
    (h : labelAddress labels name = some address) : labelAddress more name = some address := by
  obtain ⟨added, rfl⟩ := hmore
  rw [labelAddress, List.lookup_append]
  rw [labelAddress] at h
  rw [h, Option.some_or]

theorem addLabel_ok {p q : Pass1} {name : Text} (h : addLabel p name = .ok q) :
    isName name = true ∧ labelAddress p.labels name = none ∧
      q = { p with labels := p.labels ++ [(name, 4 * p.lines.length)] } := by
  unfold addLabel at h
  split_ifs at h with htext hdup
  refine ⟨by simp_all, by simpa using hdup, (Except.ok.inj h).symm⟩

/-- The names a line's labels add to the map: all at one address. -/
theorem addLabels_ok {names : List Text} {p q : Pass1} (h : addLabels p names = .ok q) :
    q = { p with labels := p.labels ++ names.map (fun name => (name, 4 * p.lines.length)) } ∧
      ∀ name ∈ names, isName name = true ∧ labelAddress q.labels name = some (4 * p.lines.length) := by
  induction names generalizing p with
  | nil =>
    obtain rfl := Except.ok.inj h
    simp
  | cons name rest ih =>
    rw [addLabels] at h
    split at h
    case h_1 r hr =>
      obtain ⟨hname, hnew, rfl⟩ := addLabel_ok hr
      obtain ⟨rfl, hrest⟩ := ih h
      refine ⟨by simp, fun n hn => ?_⟩
      obtain rfl | hn := List.mem_cons.1 hn
      · refine ⟨hname, labelAddress_mono (List.prefix_append _ _) ?_⟩
        rw [labelAddress] at hnew ⊢
        rw [List.lookup_append, hnew]
        simp
      · exact hrest n hn
    case h_2 => cases h

/-- The instruction line that a source line leaves, if any (R100). -/
def keptLine (src : Nat) (raw : Text) : List (Nat × Text) :=
  if instructionText raw = [] then [] else [(src, instructionText raw)]

theorem pass1Line_ok {src : Nat} {raw : Text} {p q : Pass1} (h : pass1Line src raw p = .ok q) :
    q.labels = p.labels ++ (labelsOf raw).map (fun name => (name, 4 * p.lines.length)) ∧
      q.lines = p.lines ++ keptLine src raw ∧
      ∀ name ∈ labelsOf raw, isName name = true ∧ labelAddress q.labels name = some (4 * p.lines.length) := by
  unfold pass1Line at h
  split at h
  case h_1 => cases h
  case h_2 r hr =>
    obtain ⟨rfl, hnames⟩ := addLabels_ok hr
    split_ifs at h with htext <;> obtain rfl := Except.ok.inj h <;> exact ⟨rfl, by simp [keptLine, htext], hnames⟩

/-! ### Pass 1 over many lines -/

theorem instructionCount_append (a b : List Text) : instructionCount (a ++ b) = instructionCount a + instructionCount b := by
  simp [instructionCount]

theorem length_keptLine (src : Nat) (raw : Text) : (keptLine src raw).length = instructionCount [raw] := by
  by_cases h : instructionText raw = [] <;> simp [keptLine, instructionCount, h]

theorem pass1From_cons_ok {src : Nat} {raw : Text} {rest : List Text} {p q : Pass1}
    (h : pass1From src (raw :: rest) p = .ok q) :
    ∃ r, pass1Line src raw p = .ok r ∧ pass1From (src + 1) rest r = .ok q := by
  rw [pass1From] at h
  split at h
  case h_1 r hr => exact ⟨r, hr, h⟩
  case h_2 => cases h

theorem pass1From_append_ok {a b : List Text} {src : Nat} {p q : Pass1} (h : pass1From src (a ++ b) p = .ok q) :
    ∃ r, pass1From src a p = .ok r ∧ pass1From (src + a.length) b r = .ok q := by
  induction a generalizing src p with
  | nil => exact ⟨p, rfl, h⟩
  | cons raw a ih =>
    obtain ⟨r, hline, hrest⟩ := pass1From_cons_ok h
    obtain ⟨r', ha, hb⟩ := ih hrest
    refine ⟨r', by rw [pass1From, hline]; exact ha, ?_⟩
    rwa [List.length_cons, Nat.add_comm a.length, ← Nat.add_assoc]

theorem pass1From_appends {source : List Text} {src : Nat} {p q : Pass1} (h : pass1From src source p = .ok q) :
    p.labels <+: q.labels ∧ p.lines <+: q.lines ∧ q.lines.length = p.lines.length + instructionCount source := by
  induction source generalizing src p with
  | nil =>
    obtain rfl := Except.ok.inj h
    exact ⟨List.prefix_rfl, List.prefix_rfl, rfl⟩
  | cons raw rest ih =>
    obtain ⟨r, hline, hrest⟩ := pass1From_cons_ok h
    obtain ⟨hlabels, hlines, -⟩ := pass1Line_ok hline
    obtain ⟨ihlabels, ihlines, ihlength⟩ := ih hrest
    refine ⟨.trans ⟨_, hlabels.symm⟩ ihlabels, .trans ⟨_, hlines.symm⟩ ihlines, ?_⟩
    rw [ihlength, hlines, List.length_append, length_keptLine, ← List.singleton_append (l := rest),
      instructionCount_append, Nat.add_assoc]

/-- The state in which pass 1 reaches line `k`, and the one after it. -/
theorem pass1From_at {source : List Text} {src k : Nat} {raw : Text} {p q : Pass1}
    (h : pass1From src source p = .ok q) (hk : source[k]? = some raw) :
    ∃ r r', r.lines.length = p.lines.length + instructionCount (source.take k) ∧ pass1Line (src + k) raw r = .ok r' ∧
      r'.labels <+: q.labels ∧ r'.lines <+: q.lines := by
  obtain ⟨hlt, hraw⟩ := List.getElem?_eq_some_iff.1 hk
  have hsplit : source = source.take k ++ raw :: source.drop (k + 1) := by
    rw [← hraw, List.cons_getElem_drop_succ, List.take_append_drop]
  rw [hsplit] at h
  obtain ⟨r, hbefore, hfrom⟩ := pass1From_append_ok h
  obtain ⟨r', hline, hafter⟩ := pass1From_cons_ok hfrom
  rw [List.length_take_of_le hlt.le] at hline
  exact ⟨r, r', (pass1From_appends hbefore).2.2, hline, (pass1From_appends hafter).1, (pass1From_appends hafter).2.1⟩

theorem pass1From_label {source : List Text} {src k : Nat} {raw name : Text} {p q : Pass1}
    (h : pass1From src source p = .ok q) (hk : source[k]? = some raw) (hname : name ∈ labelsOf raw) :
    isName name = true ∧
      labelAddress q.labels name = some (4 * (p.lines.length + instructionCount (source.take k))) := by
  obtain ⟨r, r', hlength, hline, hlabels, -⟩ := pass1From_at h hk
  obtain ⟨-, -, hadded⟩ := pass1Line_ok hline
  obtain ⟨hisName, haddress⟩ := hadded name hname
  rw [hlength] at haddress
  exact ⟨hisName, labelAddress_mono hlabels haddress⟩

theorem pass1From_line {source : List Text} {src k : Nat} {raw : Text} {p q : Pass1}
    (h : pass1From src source p = .ok q) (hk : source[k]? = some raw) (htext : instructionText raw ≠ []) :
    q.lines[p.lines.length + instructionCount (source.take k)]? = some (src + k, instructionText raw) := by
  obtain ⟨r, r', hlength, hline, -, added, hlines⟩ := pass1From_at h hk
  obtain ⟨-, hkept, -⟩ := pass1Line_ok hline
  rw [← hlines, hkept, ← hlength, keptLine, if_neg htext]
  simp

theorem mem_of_lookup_map {names : List Text} {name : Text} {a address : Nat}
    (h : (names.map (fun n => (n, a))).lookup name = some address) : name ∈ names := by
  obtain ⟨before, after, hsplit, -⟩ := List.lookup_eq_some_iff.1 h
  have hmem : (name, address) ∈ names.map (fun n => (n, a)) := by simp [hsplit]
  obtain ⟨n, hn, hpair⟩ := List.mem_map.1 hmem
  obtain rfl := congrArg Prod.fst hpair
  exact hn

/-- Every name in the map was there before or is a label of some line. -/
theorem pass1From_label_origin {source : List Text} {src : Nat} {name : Text} {address : Nat} {p q : Pass1}
    (h : pass1From src source p = .ok q) (hname : labelAddress q.labels name = some address) :
    labelAddress p.labels name = some address ∨ ∃ (k : Nat) (raw : Text), source[k]? = some raw ∧ name ∈ labelsOf raw := by
  induction source generalizing src p with
  | nil =>
    obtain rfl := Except.ok.inj h
    exact .inl hname
  | cons raw rest ih =>
    obtain ⟨r, hline, hrest⟩ := pass1From_cons_ok h
    obtain hr | ⟨k, raw', hk, hin⟩ := ih hrest
    · obtain ⟨hlabels, -⟩ := pass1Line_ok hline
      rw [hlabels, labelAddress, List.lookup_append] at hr
      obtain hold | ⟨-, hadded⟩ := Option.or_eq_some_iff.1 hr
      · exact .inl hold
      · exact .inr ⟨0, raw, rfl, mem_of_lookup_map hadded⟩
    · exact .inr ⟨k + 1, raw', hk, hin⟩

/-- Settles O54: pass 1 starts with nothing, at source line 1, and only appends. -/
theorem labelAddressesAreInstructionAddresses : Obligations.LabelAddressesAreInstructionAddresses := by
  refine ⟨fun source p h => ⟨fun k raw name hk hname => ?_, fun name address hname => ?_, ?_, fun k raw hk htext => ?_⟩,
    by decide, by decide⟩
  · obtain ⟨hisName, haddress⟩ := pass1From_label h hk hname
    rw [List.length_nil, Nat.zero_add] at haddress
    refine ⟨haddress, fun idx => ?_⟩
    rw [targetOperand_of_labelAddress hisName haddress, Nat.cast_mul, Nat.cast_ofNat]
  · obtain hold | horigin := pass1From_label_origin h hname
    · cases hold
    · exact horigin
  · obtain ⟨-, -, hlength⟩ := pass1From_appends h
    rw [hlength, List.length_nil, Nat.zero_add]
  · have hline := pass1From_line h hk htext
    rwa [List.length_nil, Nat.zero_add, Nat.add_comm 1 k] at hline

/-! ### Pass 2 -/

theorem pass2From_cons_ok {c : OpcodeTable} {labels : LabelMap} {idx src : Nat} {t : Text} {rest : List (Nat × Text)}
    {ws : List Word} (h : pass2From c labels idx ((src, t) :: rest) = .ok ws) :
    ∃ w ws', ws = w :: ws' ∧ assembleLine c labels idx t = .ok w ∧ pass2From c labels (idx + 1) rest = .ok ws' := by
  rw [pass2From] at h
  split at h
  case h_1 => cases h
  case h_2 w hw =>
    split at h
    case h_1 ws' hws => exact ⟨w, ws', (Except.ok.inj h).symm, hw, hws⟩
    case h_2 => cases h

theorem pass2From_ok {c : OpcodeTable} {labels : LabelMap} {lines : List (Nat × Text)} {idx : Nat} {ws : List Word}
    (h : pass2From c labels idx lines = .ok ws) :
    ws.length = lines.length ∧ ∀ i src t, lines[i]? = some (src, t) →
      ∃ w, ws[i]? = some w ∧ assembleLine c labels (idx + i) t = .ok w := by
  induction lines generalizing idx ws with
  | nil =>
    obtain rfl := Except.ok.inj h
    simp
  | cons line rest ih =>
    obtain ⟨w, ws', rfl, hw, hrest⟩ := pass2From_cons_ok h
    obtain ⟨hlength, hwords⟩ := ih hrest
    refine ⟨by rw [List.length_cons, List.length_cons, hlength], fun i src t hi => ?_⟩
    cases i with
    | zero =>
      obtain rfl := Option.some.inj hi
      exact ⟨w, rfl, hw⟩
    | succ i =>
      obtain ⟨v, hv, hline⟩ := hwords i src t hi
      refine ⟨v, hv, ?_⟩
      rwa [Nat.add_right_comm] at hline

theorem assemble_words {c : OpcodeTable} {file : Text} {source : List Text} {ws : List Word}
    (h : assemble c file source = .words ws) :
    ∃ p, pass1 source = .ok p ∧ pass2From c p.labels 0 p.lines = .ok ws := by
  unfold assemble at h
  split at h
  case h_1 => cases h
  case h_2 p hp =>
    split at h
    case h_1 ws' hws =>
      obtain rfl := Result.words.inj h
      exact ⟨p, hp, hws⟩
    case h_2 | h_3 => cases h

/-- Settles O55: an assembled unit passed pass 1, and pass 2 gives its words line by line. -/
theorem oneWordPerInstructionLine : Obligations.OneWordPerInstructionLine := by
  intro c file source ws h
  obtain ⟨p, hp, hws⟩ := assemble_words h
  obtain ⟨hlength, hwords⟩ := pass2From_ok hws
  refine ⟨p, hp, hlength, fun i src t hi => ?_⟩
  simpa only [Nat.zero_add] using hwords i src t hi

/-- Settles O56: the assembler runs on the document's example and on the one example of `j`. -/
theorem labelExampleAssembles : Obligations.LabelExampleAssembles := by
  unfold Obligations.LabelExampleAssembles
  decide

end Sys2Proof.Asm
end

section
/-! A step that fails, seen from the host port (40_step_cycle.md R125, R126): the state stays, so a request that answered
without changing the state answers the same again. -/

namespace Sys2Proof.Machine

theorem stepRequest_of_fault {c : OpcodeTable} {s : State} {f : Fault} (h : stepWith c s = .fault f) :
    stepRequest c s = (s, .error f) := by
  simp [stepRequest, h]

theorem stepRequest_unchanged {c : OpcodeTable} {s t : State} {r : HostReply} (h : stepRequest c s = (t, r))
    (hr : r ≠ .ok) : t = s := by
  obtain hsame | hnext := stepRequest_state c s
  · rwa [h] at hsame
  · have hok := stepRequest_of_next hnext
    rw [h] at hok
    exact absurd (congrArg Prod.snd hok) hr

/-- Settles O21: a fault is answered beside the old state, and only a next state is answered by ok. -/
theorem failedStepChangesNothing : Obligations.FailedStepChangesNothing :=
  ⟨fun _ _ _ _ h => stepRequest_of_fault h, fun _ _ _ _ _ h hr => stepRequest_unchanged h hr⟩

/-- A request that leaves the state is answered alike however often it is made. -/
theorem serveAll_replicate_of_unchanged {c : OpcodeTable} {resetPc : Word} {r : HostRequest} {s : State}
    {reply : HostReply} (h : serve c resetPc r s = (s, reply)) (n : Nat) :
    serveAll c resetPc (List.replicate n r) s = (s, List.replicate n reply) := by
  induction n with
  | zero => rfl
  | succ n ih => simp only [List.replicate_succ, serveAll, h, ih]

/-- Settles O22: the failed step left the state it was made in. -/
theorem failureRepeatsUntilTheHostActs : Obligations.FailureRepeatsUntilTheHostActs := by
  intro c resetPc s t f n h
  obtain rfl : t = s := stepRequest_unchanged h (by simp)
  exact serveAll_replicate_of_unchanged h n

end Sys2Proof.Machine
end

section
/-! The step and the instruction at the pc (40_step_cycle.md R118 to R121, R127): a step whose word decodes is the decoded
instruction's meaning, and the word of an instruction stored at the pc is such a word. -/

namespace Sys2Proof.Machine

/-- What a step does with the decoder's answer (40_step_cycle.md R121, R128). -/
def runDecoded (d : Decoded) (s : State) : Host.Outcome State Fault Refusal :=
  match d with
  | .invalidOpcode => raise .invalidOpcode
  | .unimplemented => raise .unimplementedInstruction
  | .ok i => exec i s

/-- One row of the decoder's dispatch is one row of the step's. -/
theorem runDecoded_ite (p : Prop) [Decidable p] (i : Instr) (d : Decoded) (s : State) :
    runDecoded (if p then .ok i else d) s = if p then exec i s else runDecoded d s :=
  apply_ite (runDecoded · s) ..

theorem stepWith_of_fetch {c : OpcodeTable} {s : State} {w : Word} (h : s.fetch = some w) :
    stepWith c s = runDecoded (decodeWith c w) s := by
  rw [stepWith, h]
  rfl

theorem stepWith_of_fetch_none {c : OpcodeTable} {s : State} (h : s.fetch = none) :
    stepWith c s = .fault .fetchOutOfBounds := by
  rw [stepWith, h]
  rfl

/-- Settles O24: `stepWith_of_decode`, and `step` is the case of the default constants. -/
theorem stepRunsTheDecodedInstruction : Obligations.StepRunsTheDecodedInstruction :=
  ⟨fun _ _ _ _ hfetch hdecode => stepWith_of_decode hfetch hdecode,
    fun _ _ _ hfetch hdecode => stepWith_of_decode hfetch hdecode⟩

theorem tableWord_toNat (w : Word) : tableWord 32 w.toNat = w := by
  rw [tableWord, Nat.min_self, Nat.mod_eq_of_lt w.isLt, BitVec.ofNat_toNat, BitVec.setWidth_eq]

theorem State.withFetchWord_admitted {s : State} (h : s.mem.admits s.pc) (w : Word) :
    ∃ m, s.mem.writeWord s.pc w = some m ∧ s.withFetchWord 32 w.toNat = { s with mem := m } := by
  obtain ⟨m, hm⟩ := Memory.writeWord_admitted s.mem s.pc w h
  exact ⟨m, hm, by simp only [State.withFetchWord, tableWord_toNat, hm]⟩

/-- Settles O25: the fetch reads back the word just written at the pc, and the decoder gives back the instruction it encodes;
the frame is that of the word write. -/
theorem storedWordRunsNext : Obligations.StoredWordRunsNext := by
  intro c s i hc hi hfits
  obtain ⟨m, hwrite, hstored⟩ := State.withFetchWord_admitted hfits (encodeWith c i)
  obtain ⟨hsize, -, hframe⟩ := Memory.writeWord_spec hwrite
  rw [hstored]
  exact ⟨stepWith_of_decode (Memory.readWord_writeWord_same hwrite) (decodeWith_encodeWith hc hi), fun _ => rfl, rfl,
    hsize, hframe⟩

end Sys2Proof.Machine
end

section
/-! The errors of a step (40_step_cycle.md R128, 60_exceptions.md R160 to R164): one case per check, each with the condition
under which the earlier checks passed and its own failed. -/

namespace Sys2Proof

/-- Of the three answers of the decoder, the one left when the class is valid and no instruction is decoded. -/
theorem decodeWith_eq_unimplemented_iff_forall_ne {c : OpcodeTable} {w : Word} :
    decodeWith c w = .unimplemented ↔ Codec.opclassWith c w ≠ .invalid ∧ ∀ i, decodeWith c w ≠ .ok i := by
  rw [ne_eq, ← decodeWith_eq_invalidOpcode_iff]
  cases decodeWith c w with
  | ok i => simp
  | invalidOpcode | unimplemented => simp

end Sys2Proof

namespace Sys2Proof.Machine

theorem Memory.readWord_eq_none_iff {m : Memory} {addr : Word} : m.readWord addr = none ↔ m.size < addr.toNat + 4 := by
  simp [Memory.readWord]

theorem Memory.writeWord_eq_none_iff {m : Memory} {addr v : Word} :
    m.writeWord addr v = none ↔ m.size < addr.toNat + 4 := by
  simp [Memory.writeWord]

theorem execLw_eq_fault_iff {rd rs1 : RegIdx} {imm : BitVec 12} {s : State} {f : Fault} :
    execLw rd rs1 imm s = .fault f ↔
      f = .loadOutOfBounds ∧ s.mem.size < (s.effectiveAddress rs1 imm).toNat + 4 := by
  rw [← Memory.readWord_eq_none_iff, execLw, raise]
  cases s.mem.readWord (s.effectiveAddress rs1 imm) with
  | none => simp [eq_comm]
  | some v => simp

theorem execSw_eq_fault_iff {rs2 rs1 : RegIdx} {imm : BitVec 12} {s : State} {f : Fault} :
    execSw rs2 rs1 imm s = .fault f ↔
      f = .storeOutOfBounds ∧ s.mem.size < (s.effectiveAddress rs1 imm).toNat + 4 := by
  rw [← Memory.writeWord_eq_none_iff (v := s.readReg rs2), execSw, raise]
  cases s.mem.writeWord (s.effectiveAddress rs1 imm) (s.readReg rs2) with
  | none => simp [eq_comm]
  | some m => simp

/-- Why a step fails (60_exceptions.md R160 to R164). -/
inductive StepFails (c : OpcodeTable) (s : State) : Fault → Prop
  | fetch (hbound : s.mem.size < s.pc.toNat + 4) : StepFails c s .fetchOutOfBounds
  | invalid {w : Word} (hfetch : s.fetch = some w) (hclass : Codec.opclassWith c w = .invalid) :
      StepFails c s .invalidOpcode
  | unimplemented {w : Word} (hfetch : s.fetch = some w) (hclass : Codec.opclassWith c w ≠ .invalid)
      (hnone : ∀ i, decodeWith c w ≠ .ok i) : StepFails c s .unimplementedInstruction
  | load {w : Word} {rd rs1 : RegIdx} {imm : BitVec 12} (hfetch : s.fetch = some w)
      (hdecode : decodeWith c w = .ok (.lw rd rs1 imm))
      (hbound : s.mem.size < (s.effectiveAddress rs1 imm).toNat + 4) : StepFails c s .loadOutOfBounds
  | store {w : Word} {rs2 rs1 : RegIdx} {imm : BitVec 12} (hfetch : s.fetch = some w)
      (hdecode : decodeWith c w = .ok (.sw rs2 rs1 imm))
      (hbound : s.mem.size < (s.effectiveAddress rs1 imm).toNat + 4) : StepFails c s .storeOutOfBounds

theorem stepFails_of_stepWith {c : OpcodeTable} {s : State} {f : Fault} (h : stepWith c s = .fault f) :
    StepFails c s f := by
  cases hfetch : s.fetch with
  | none =>
    rw [stepWith_of_fetch_none hfetch] at h
    cases h
    exact .fetch (Memory.readWord_eq_none_iff.mp hfetch)
  | some w =>
    rw [stepWith_of_fetch hfetch] at h
    cases hdecode : decodeWith c w with
    | invalidOpcode =>
      rw [hdecode] at h
      cases h
      exact .invalid hfetch (decodeWith_eq_invalidOpcode_iff.mp hdecode)
    | unimplemented =>
      rw [hdecode] at h
      cases h
      obtain ⟨hclass, hnone⟩ := decodeWith_eq_unimplemented_iff_forall_ne.mp hdecode
      exact .unimplemented hfetch hclass hnone
    | ok i =>
      rw [hdecode] at h
      cases i with
      | lw rd rs1 imm =>
        obtain ⟨rfl, hbound⟩ := execLw_eq_fault_iff.mp h
        exact .load hfetch hdecode hbound
      | sw rs2 rs1 imm =>
        obtain ⟨rfl, hbound⟩ := execSw_eq_fault_iff.mp h
        exact .store hfetch hdecode hbound
      | add | sub | slt | addi | slli | beq | bne | blt | jal | jalr => cases h

theorem StepFails.stepWith_eq {c : OpcodeTable} {s : State} {f : Fault} (h : StepFails c s f) :
    stepWith c s = .fault f := by
  cases h with
  | fetch hbound => exact stepWith_of_fetch_none (Memory.readWord_eq_none_iff.mpr hbound)
  | invalid hfetch hclass =>
    rw [stepWith_of_fetch hfetch, decodeWith_eq_invalidOpcode_iff.mpr hclass]
    rfl
  | unimplemented hfetch hclass hnone =>
    rw [stepWith_of_fetch hfetch, decodeWith_eq_unimplemented_iff_forall_ne.mpr ⟨hclass, hnone⟩]
    rfl
  | load hfetch hdecode hbound =>
    rw [stepWith_of_decode hfetch hdecode]
    exact execLw_eq_fault_iff.mpr ⟨rfl, hbound⟩
  | store hfetch hdecode hbound =>
    rw [stepWith_of_decode hfetch hdecode]
    exact execSw_eq_fault_iff.mpr ⟨rfl, hbound⟩

theorem stepWith_eq_fault_iff {c : OpcodeTable} {s : State} {f : Fault} :
    stepWith c s = .fault f ↔ StepFails c s f :=
  ⟨stepFails_of_stepWith, StepFails.stepWith_eq⟩

theorem stepWith_not_refused (c : OpcodeTable) (s : State) (r : Refusal) : stepWith c s ≠ .refused r := by
  cases hfetch : s.fetch with
  | none => simp [stepWith_of_fetch_none hfetch]
  | some w =>
    rw [stepWith_of_fetch hfetch]
    cases decodeWith c w with
    | ok i => exact exec_not_refused i s r
    | invalidOpcode | unimplemented => simp [runDecoded, raise]

/-- Settles O26: each error has exactly one case of `StepFails`. -/
theorem stepErrorsInOrder : Obligations.StepErrorsInOrder := by
  intro c s
  simp only [stepWith_eq_fault_iff]
  exact ⟨⟨fun | .fetch hbound => hbound, .fetch⟩,
    ⟨fun | .invalid hf hclass => ⟨_, hf, hclass⟩, fun ⟨_, hf, hclass⟩ => .invalid hf hclass⟩,
    ⟨fun | .unimplemented hf hclass hnone => ⟨_, hf, hclass, hnone⟩,
      fun ⟨_, hf, hclass, hnone⟩ => .unimplemented hf hclass hnone⟩,
    ⟨fun | .load hf hd hbound => ⟨_, _, _, _, hf, hd, hbound⟩, fun ⟨_, _, _, _, hf, hd, hbound⟩ => .load hf hd hbound⟩,
    ⟨fun | .store hf hd hbound => ⟨_, _, _, _, hf, hd, hbound⟩, fun ⟨_, _, _, _, hf, hd, hbound⟩ => .store hf hd hbound⟩,
    stepWith_not_refused c s⟩

end Sys2Proof.Machine
end

section
/-! The step and the spec's pseudocode (40_step_cycle.md R127). First the meaning of each instruction that the pseudocode
spells differently, then the two dispatches, which compare the same fields in the same order. -/

namespace Sys2Proof.Machine

/-- Writeback and pc update in two lines, the pc read at the start of the step. -/
theorem State.writeBack_eq_setPc (s : State) (rd : RegIdx) (v : Word) :
    s.writeBack rd v = (s.writeReg rd v).setPc (s.pc + instrSize) := by
  rw [State.writeBack, State.advance, State.writeReg_pc]

theorem State.branchIf_eq_setPc (s : State) (taken : Bool) (imm : BitVec 13) :
    s.branchIf taken imm = s.setPc (if taken then s.pc + immValue imm else s.pc + instrSize) := by
  cases taken <;> rfl

theorem execSlt_eq (rd a b : RegIdx) (s : State) : execSlt rd a b s =
    .next ((s.writeReg rd (if (s.readReg a).toInt < (s.readReg b).toInt then 1 else 0)).setPc (s.pc + instrSize)) := by
  simp only [execSlt, boolWord, isLessSigned, decide_eq_true_eq, State.writeBack_eq_setPc]

theorem execBeq_eq (a b : RegIdx) (imm : BitVec 13) (s : State) : execBeq a b imm s =
    .next (s.setPc (if s.readReg a = s.readReg b then s.pc + immValue imm else s.pc + instrSize)) := by
  simp only [execBeq, isEqual, State.branchIf_eq_setPc, decide_eq_true_eq]

theorem execBne_eq (a b : RegIdx) (imm : BitVec 13) (s : State) : execBne a b imm s =
    .next (s.setPc (if s.readReg a ≠ s.readReg b then s.pc + immValue imm else s.pc + instrSize)) := by
  simp only [execBne, isEqual, State.branchIf_eq_setPc, ← decide_not, decide_eq_true_eq, ne_eq]

theorem execBlt_eq (a b : RegIdx) (imm : BitVec 13) (s : State) : execBlt a b imm s =
    .next (s.setPc (if (s.readReg a).toInt < (s.readReg b).toInt then s.pc + immValue imm else s.pc + instrSize)) := by
  simp only [execBlt, isLessSigned, State.branchIf_eq_setPc, decide_eq_true_eq]

/-- Settles O27: by the class of the fetched word, and within a class row by row. -/
theorem stepIsThePseudocode : Obligations.StepIsThePseudocode := by
  intro c s
  unfold pseudoStep
  cases hfetch : s.mem.readWord s.pc with
  | none => exact stepWith_of_fetch_none hfetch
  | some w =>
    rw [stepWith_of_fetch hfetch, decodeWith]
    dsimp only
    cases Codec.opclassWith c w with
    | invalid | jal | jalr => rfl
    | rType =>
      simp only [runDecoded_ite]
      exact ite_congr rfl (fun _ => congrArg _ (State.writeBack_eq_setPc ..)) fun _ =>
        ite_congr rfl (fun _ => congrArg _ (State.writeBack_eq_setPc ..)) fun _ =>
        ite_congr rfl (fun _ => execSlt_eq ..) fun _ => rfl
    | iType =>
      simp only [runDecoded_ite]
      exact ite_congr rfl (fun _ => congrArg _ (State.writeBack_eq_setPc ..)) fun _ =>
        ite_congr rfl (fun _ => congrArg _ (State.writeBack_eq_setPc ..)) fun _ => rfl
    | load =>
      simp only [runDecoded_ite, ne_eq, ite_not]
      refine ite_congr rfl (fun _ => ?_) fun _ => rfl
      rw [exec, execLw, State.effectiveAddress, immValue, Codec.immI]
      cases s.mem.readWord (s.readReg (Codec.rs1 w) + Codec.sext32 (Codec.rawI w)) with
      | none => rfl
      | some v => exact congrArg _ (State.writeBack_eq_setPc ..)
    | store =>
      simp only [runDecoded_ite, ne_eq, ite_not]
      refine ite_congr rfl (fun _ => ?_) fun _ => rfl
      rw [exec, execSw, State.effectiveAddress, immValue, Codec.immS]
      cases s.mem.writeWord (s.readReg (Codec.rs1 w) + Codec.sext32 (Codec.rawS w)) (s.readReg (Codec.rs2 w)) with
      | none => rfl
      | some m => rfl
    | branch =>
      simp only [runDecoded_ite]
      exact ite_congr rfl (fun _ => execBeq_eq ..) fun _ => ite_congr rfl (fun _ => execBne_eq ..) fun _ =>
        ite_congr rfl (fun _ => execBlt_eq ..) fun _ => rfl

end Sys2Proof.Machine
end

section
/-! The pc after a step (40_step_cycle.md R124): what an instruction leaves in the pc, then what that is for the instruction
the fetched word decodes to. -/

namespace Sys2Proof

theorem OpcodeTable.branch_funct3_ne {c : OpcodeTable} (hc : c.distinct = true) :
    c.f3Beq ≠ c.f3Bne ∧ c.f3Beq ≠ c.f3Blt ∧ c.f3Bne ≠ c.f3Blt := by
  simp only [OpcodeTable.distinct, Bool.and_eq_true, decide_eq_true_eq] at hc
  obtain ⟨⟨-, hbranch⟩, -⟩ := hc
  simpa [and_assoc] using hbranch

end Sys2Proof

namespace Sys2Proof.Machine

/-- The pc that an instruction leaves when it completes: the target of a jump or a taken branch, else pc + 4. -/
def State.pcAfter (s : State) : Instr → Word
  | .beq rs1 rs2 imm => if s.readReg rs1 = s.readReg rs2 then s.relativeTarget imm else s.pc + instrSize
  | .bne rs1 rs2 imm => if s.readReg rs1 ≠ s.readReg rs2 then s.relativeTarget imm else s.pc + instrSize
  | .blt rs1 rs2 imm =>
    if (s.readReg rs1).toInt < (s.readReg rs2).toInt then s.relativeTarget imm else s.pc + instrSize
  | .jal _ imm => s.relativeTarget imm
  | .jalr _ rs1 imm _ => s.indirectTarget rs1 imm
  | .add _ _ _ | .sub _ _ _ | .slt _ _ _ _ | .addi _ _ _ | .slli _ _ _ | .lw _ _ _ | .sw _ _ _ => s.pc + instrSize

theorem exec_next_pc {i : Instr} {s t : State} (h : exec i s = .next t) : t.pc = s.pcAfter i := by
  cases i with
  | lw rd rs1 imm =>
    obtain ⟨v, -, rfl⟩ := execLw_next h
    exact State.writeBack_pc ..
  | sw rs2 rs1 imm =>
    obtain ⟨m, -, rfl⟩ := execSw_next h
    rfl
  | add | sub | slt | addi | slli =>
    injection h with h
    subst h
    exact State.writeBack_pc ..
  | beq rs1 rs2 imm =>
    injection (execBeq_eq ..).symm.trans h with h
    exact congrArg State.pc h.symm
  | bne rs1 rs2 imm =>
    injection (execBne_eq ..).symm.trans h with h
    exact congrArg State.pc h.symm
  | blt rs1 rs2 imm =>
    injection (execBlt_eq ..).symm.trans h with h
    exact congrArg State.pc h.symm
  | jal | jalr =>
    injection h with h
    subst h
    exact State.linkAndJump_pc ..

/-- Settles O34: the class of the word fixes the instruction, within BRANCH together with funct3. -/
theorem pcAfterEveryStep : Obligations.PcAfterEveryStep := by
  intro c s t w hc hfetch hstep
  obtain ⟨w', i, hfetch', hdecode, hexec⟩ := stepWith_next_cases hstep
  obtain rfl : w = w' := Option.some.inj (hfetch.symm.trans hfetch')
  obtain ⟨hbeqBne, hbeqBlt, hbneBlt⟩ := OpcodeTable.branch_funct3_ne hc
  rw [exec_next_pc hexec]
  cases decodesTo_of_decodeWith hdecode with
  | add hclass | sub hclass | slt hclass | addi hclass | slli hclass | lw hclass | sw hclass =>
    simp [hclass, State.pcAfter, instrSize]
  | beq hclass h3 =>
    simp [hclass, h3, State.pcAfter, State.relativeTarget, immValue, Codec.immB, instrSize, hbeqBne, hbeqBlt]
  | bne hclass h3 =>
    simp [hclass, h3, State.pcAfter, State.relativeTarget, immValue, Codec.immB, instrSize, hbeqBne.symm, hbneBlt]
  | blt hclass h3 =>
    simp [hclass, h3, State.pcAfter, State.relativeTarget, immValue, Codec.immB, instrSize, hbeqBlt.symm, hbneBlt.symm]
  | jal hclass => simp [hclass, State.pcAfter, State.relativeTarget, immValue, Codec.immJ]
  | jalr hclass => simp [hclass, State.pcAfter, State.indirectTarget, immValue, Codec.immI]

end Sys2Proof.Machine
end

section
/-! What a step depends on (40_step_cycle.md R131). States alike in the registers, the pc, and the memory's size and bytes
stay alike under every state operation, and so under every instruction. The lists of cells that hold the bytes may differ. -/

namespace Sys2Proof.Machine

/-- `SameMemory`, said of the memories alone. -/
def Memory.Alike (m m' : Memory) : Prop := m'.size = m.size ∧ ∀ a : Nat, m'.readByte a = m.readByte a

theorem Memory.Alike.readWord {m m' : Memory} (h : m.Alike m') (addr : Word) : m'.readWord addr = m.readWord addr := by
  obtain ⟨hsize, hbytes⟩ := h
  simp only [Memory.readWord, Memory.admits, hsize, hbytes]

theorem Memory.Alike.writeByte {m m' : Memory} (h : m.Alike m') (a : Nat) (b : Byte) :
    (m.writeByte a b).Alike (m'.writeByte a b) := by
  obtain ⟨hsize, hbytes⟩ := h
  refine ⟨hsize, fun a' => ?_⟩
  rw [Memory.readByte_writeByte, Memory.readByte_writeByte, hbytes]

theorem Memory.Alike.writeWord {m m' n : Memory} (h : m.Alike m') {addr v : Word} (hwrite : m.writeWord addr v = some n) :
    ∃ n', m'.writeWord addr v = some n' ∧ n.Alike n' := by
  have hfits := Memory.writeWord_admits hwrite
  have hfits' : m'.admits addr := by
    obtain ⟨hsize, -⟩ := h
    rwa [Memory.admits, hsize]
  rw [Memory.writeWord, if_pos hfits] at hwrite
  obtain rfl := Option.some.inj hwrite
  exact ⟨_, if_pos hfits', (((h.writeByte ..).writeByte ..).writeByte ..).writeByte ..⟩

theorem Memory.Alike.writeWord_none {m m' : Memory} (h : m.Alike m') {addr v : Word} (hwrite : m.writeWord addr v = none) :
    m'.writeWord addr v = none := by
  rw [Memory.writeWord_eq_none_iff] at hwrite ⊢
  obtain ⟨hsize, -⟩ := h
  rwa [hsize]

/-- All that a step can see of two states is the same. -/
structure State.Alike (s s' : State) : Prop where
  regs : SameRegs s s'
  pc : s'.pc = s.pc
  mem : s.mem.Alike s'.mem

namespace State.Alike

variable {s s' : State} (h : s.Alike s')
include h

theorem readReg (r : RegIdx) : s'.readReg r = s.readReg r := h.regs r

theorem setPc (t : Word) : (s.setPc t).Alike (s'.setPc t) := ⟨h.regs, rfl, h.mem⟩

theorem advance : s.advance.Alike s'.advance := by
  rw [State.advance, State.advance, h.pc]
  exact h.setPc _

theorem writeReg (rd : RegIdx) (v : Word) : (s.writeReg rd v).Alike (s'.writeReg rd v) := by
  constructor
  · intro r
    rw [State.readReg_writeReg, State.readReg_writeReg, h.readReg]
  · simp only [State.writeReg_pc, h.pc]
  · simpa only [State.writeReg_mem] using h.mem

theorem writeBack (rd : RegIdx) (v : Word) : (s.writeBack rd v).Alike (s'.writeBack rd v) := (h.writeReg rd v).advance

theorem linkAndJump (rd : RegIdx) (t : Word) : (s.linkAndJump rd t).Alike (s'.linkAndJump rd t) := by
  rw [State.linkAndJump, State.linkAndJump, h.pc]
  exact (h.writeReg ..).setPc t

theorem effectiveAddress (a : RegIdx) (imm : BitVec 12) : s'.effectiveAddress a imm = s.effectiveAddress a imm := by
  rw [State.effectiveAddress, State.effectiveAddress, h.readReg]

theorem indirectTarget (a : RegIdx) (imm : BitVec 12) : s'.indirectTarget a imm = s.indirectTarget a imm := by
  rw [State.indirectTarget, State.indirectTarget, h.readReg]

theorem relativeTarget {n : Nat} (imm : BitVec n) : s'.relativeTarget imm = s.relativeTarget imm := by
  rw [State.relativeTarget, State.relativeTarget, h.pc]

theorem branchIf (taken : Bool) (imm : BitVec 13) : (s.branchIf taken imm).Alike (s'.branchIf taken imm) := by
  cases taken with
  | true =>
    show (s.setPc _).Alike (s'.setPc _)
    rw [h.relativeTarget]
    exact h.setPc _
  | false => exact h.advance

theorem fetch : s'.fetch = s.fetch := by
  rw [State.fetch, State.fetch, h.pc, h.mem.readWord]

end State.Alike

/-- Of two steps, both go on to states alike or both end in the same error. -/
inductive OutcomesAlike : Host.Outcome State Fault Refusal → Host.Outcome State Fault Refusal → Prop
  | next {t t' : State} (h : t.Alike t') : OutcomesAlike (.next t) (.next t')
  | fault (f : Fault) : OutcomesAlike (.fault f) (.fault f)

theorem exec_alike (i : Instr) {s s' : State} (h : s.Alike s') : OutcomesAlike (exec i s) (exec i s') := by
  cases i with
  | add | sub | slt | addi | slli =>
    simp only [exec, execAdd, execSub, execSlt, execAddi, execSlli, h.readReg]
    exact .next (h.writeBack ..)
  | beq | bne | blt =>
    simp only [exec, execBeq, execBne, execBlt, h.readReg]
    exact .next (h.branchIf ..)
  | jal =>
    simp only [exec, execJal, h.relativeTarget]
    exact .next (h.linkAndJump ..)
  | jalr =>
    simp only [exec, execJalr, h.indirectTarget]
    exact .next (h.linkAndJump ..)
  | lw rd a imm =>
    simp only [exec, execLw, h.effectiveAddress, h.mem.readWord]
    cases s.mem.readWord (s.effectiveAddress a imm) with
    | none => exact .fault _
    | some v => exact .next (h.writeBack ..)
  | sw b a imm =>
    simp only [exec, execSw, h.effectiveAddress, h.readReg]
    cases hwrite : s.mem.writeWord (s.effectiveAddress a imm) (s.readReg b) with
    | none =>
      rw [h.mem.writeWord_none hwrite]
      exact .fault _
    | some m =>
      obtain ⟨m', hwrite', hm⟩ := h.mem.writeWord hwrite
      rw [hwrite']
      exact .next (State.Alike.advance ⟨h.regs, h.pc, hm⟩)

theorem stepWith_alike (c : OpcodeTable) {s s' : State} (h : s.Alike s') :
    OutcomesAlike (stepWith c s) (stepWith c s') := by
  cases hfetch : s.fetch with
  | none =>
    rw [stepWith_of_fetch_none hfetch, stepWith_of_fetch_none (h.fetch.trans hfetch)]
    exact .fault _
  | some w =>
    rw [stepWith_of_fetch hfetch, stepWith_of_fetch (h.fetch.trans hfetch)]
    cases decodeWith c w with
    | ok i => exact exec_alike i h
    | invalidOpcode | unimplemented => exact .fault _

/-- Settles O36: the two states are alike, and so are the two results. -/
theorem observedStateDeterminesTheStep : Obligations.ObservedStateDeterminesTheStep := by
  intro c s s' hregs hpc hmem
  have halike := stepWith_alike c (s := s) (s' := s') ⟨hregs, hpc, hmem⟩
  generalize stepWith c s' = o' at halike ⊢
  constructor
  · intro t hstep
    rw [hstep] at halike
    cases halike with
    | next h => exact ⟨_, rfl, h.regs, h.pc, h.mem⟩
  · intro f hstep
    rw [hstep] at halike
    cases halike
    rfl

end Sys2Proof.Machine
end

section
/-! The register-register instructions (41_integer_register.md). Each of them is one write-back, so what a write-back does to
the register file, the pc and the memory is said first, and an instruction adds the value that it writes. -/

namespace Sys2Proof

/-- Under the default constants too, the encoding of a well-formed instruction decodes to it. -/
theorem decode_encode {i : Instr} (hi : i.wf = true) : decode (encode i) = .ok i :=
  decodeWith_encodeWith distinct_opcodes hi

end Sys2Proof

namespace Sys2Proof.Machine

/-! ### Write-back -/

theorem State.readReg_writeBack_self (s : State) (rd : RegIdx) (v : Word) :
    (s.writeBack rd v).readReg rd = writtenReg rd v :=
  State.readReg_writeReg_self s rd v

theorem State.sameRegsBut_writeBack (s : State) (rd : RegIdx) (v : Word) : SameRegsBut rd s (s.writeBack rd v) :=
  State.sameRegsBut_writeReg s rd v

theorem State.sameMemory_writeBack (s : State) (rd : RegIdx) (v : Word) : SameMemory s (s.writeBack rd v) := by
  simp only [SameMemory, State.writeBack_mem, implies_true, and_self]

/-- Where pc + 4 fits 32 bits, it does not wrap. -/
theorem State.writeBack_pc_toNat {s : State} (h : s.pc.toNat + 4 < 2 ^ 32) (rd : RegIdx) (v : Word) :
    (s.writeBack rd v).pc.toNat = s.pc.toNat + 4 := by
  rw [State.writeBack_pc]
  exact BitVec.toNat_add_of_lt h

/-! ### The values written -/

/-- The difference of two words is that of the numbers they stand for, modulo 2^32. -/
theorem sub_eq_ofInt (a b : Word) : a - b = BitVec.ofInt 32 (a.toNat - b.toNat) := by
  rw [Int.sub_eq_add_neg, BitVec.ofInt_add, BitVec.ofInt_neg, BitVec.sub_eq_add_neg]
  simp only [BitVec.ofInt_natCast, BitVec.ofNat_toNat, BitVec.setWidth_eq]

theorem boolWord_isLessSigned (a b : Word) : boolWord (isLessSigned a b) = if a.toInt < b.toInt then 1 else 0 := by
  simp only [boolWord, isLessSigned, decide_eq_true_eq]

/-! ### ADD, SUB, SLT -/

/-- Settles O37: ADD writes back the sum of the words, which is by definition the sum of the numbers modulo 2^32. -/
theorem addWritesTheWrappedSum : Obligations.AddWritesTheWrappedSum := by
  intro rd rs1 rs2 s
  refine ⟨decode_encode (i := .add rd rs1 rs2) rfl, s.writeBack rd (s.readReg rs1 + s.readReg rs2), rfl, ?_,
    s.sameRegsBut_writeBack _ _, fun hpc => State.writeBack_pc_toNat hpc _ _, s.sameMemory_writeBack _ _⟩
  rw [State.readReg_writeBack_self, BitVec.add_def]

/-- Settles O38: SUB writes back the first source minus the second, and a negative difference wraps. -/
theorem subWritesTheWrappedDifference : Obligations.SubWritesTheWrappedDifference := by
  intro rd rs1 rs2 s
  refine ⟨decode_encode (i := .sub rd rs1 rs2) rfl, s.writeBack rd (s.readReg rs1 - s.readReg rs2), rfl, ?_,
    s.sameRegsBut_writeBack _ _, fun hpc => State.writeBack_pc_toNat hpc _ _, s.sameMemory_writeBack _ _⟩
  rw [State.readReg_writeBack_self, sub_eq_ofInt]

/-- Settles O39: SLT writes back the signed comparison as a word; the decoder keeps funct7 and the meaning ignores it. -/
theorem sltWritesTheSignedComparison : Obligations.SltWritesTheSignedComparison := by
  intro rd rs1 rs2 funct7 s
  refine ⟨decode_encode (i := .slt rd rs1 rs2 funct7) rfl,
    s.writeBack rd (boolWord (isLessSigned (s.readReg rs1) (s.readReg rs2))), rfl, ?_, s.sameRegsBut_writeBack _ _,
    s.writeBack_pc .., s.sameMemory_writeBack _ _⟩
  rw [State.readReg_writeBack_self, boolWord_isLessSigned]

end Sys2Proof.Machine
end

section
/-! The register-immediate instructions (42_integer_immediate.md). Each of them is one write-back, as in
41_integer_register.md; what is new here is the integer that an immediate operand contributes. -/

namespace Sys2Proof.Machine

/-! ### The values written -/

/-- A word plus an immediate operand is the word's number plus the field's signed value, modulo 2^32 (R22). -/
theorem add_immValue_eq_ofInt {n : Nat} (a : Word) (imm : BitVec n) :
    a + immValue imm = BitVec.ofInt 32 (a.toNat + imm.toInt) := by
  rw [BitVec.ofInt_add, BitVec.ofInt_natCast, BitVec.ofNat_toNat, BitVec.setWidth_eq, immValue, Codec.sext32,
    BitVec.signExtend]

/-- R73: the mask keeps the low five bits, which sign extension does not change. -/
theorem shiftAmount_eq_mod (imm : BitVec 12) : shiftAmount imm = imm.toNat % 32 := by
  have hmask : shiftAmount imm = (immValue imm).toNat % 32 := by
    rw [shiftAmount, BitVec.toNat_and]
    exact Nat.and_two_pow_sub_one_eq_mod _ 5
  have hfield : (immValue imm).toNat % 2 ^ 12 = imm.toNat := by
    rw [immValue, ← BitVec.toNat_setWidth, Codec.setWidth_sext32 imm (by decide)]
  omega

/-- A left shift multiplies by a power of two, modulo 2^32. -/
theorem shiftLeft_eq_ofNat_mul (a : Word) (n : Nat) : a <<< n = BitVec.ofNat 32 (a.toNat * 2 ^ n) := by
  rw [← Nat.shiftLeft_eq]
  rfl

/-! ### ADDI, SLLI -/

/-- Settles O40: ADDI writes back the register plus the immediate operand, a negative immediate included. -/
theorem addiWritesTheSum : Obligations.AddiWritesTheSum := by
  intro rd rs1 imm s
  refine ⟨decode_encode (i := .addi rd rs1 imm) rfl, s.writeBack rd (s.readReg rs1 + immValue imm), rfl, ?_,
    s.sameRegsBut_writeBack _ _, s.writeBack_pc .., s.sameMemory_writeBack _ _⟩
  rw [State.readReg_writeBack_self, add_immValue_eq_ofInt]

/-- Settles O41: SLLI writes back the shifted register; the decoder keeps the whole immediate and the meaning reads its low
five bits. -/
theorem slliShiftsByTheLowFiveBits : Obligations.SlliShiftsByTheLowFiveBits := by
  intro rd rs1 imm s
  refine ⟨decode_encode (i := .slli rd rs1 imm) rfl, s.writeBack rd (s.readReg rs1 <<< shiftAmount imm), rfl, ?_,
    s.sameRegsBut_writeBack _ _, s.writeBack_pc .., s.sameMemory_writeBack _ _⟩
  rw [State.readReg_writeBack_self, shiftAmount_eq_mod, shiftLeft_eq_ofNat_mul]

end Sys2Proof.Machine
end

section
/-! The loads and stores (43_load_store.md). Inside the memory LW is one word read and a write-back, SW one word write and
the pc's advance; what is new here is the pair of equations that say so, and the integer that the effective address is. -/

namespace Sys2Proof.Machine

/-! ### LW and SW inside the memory -/

theorem exec_lw_of_readWord {rd rs1 : RegIdx} {imm : BitVec 12} {s : State} {v : Word}
    (h : s.mem.readWord (s.effectiveAddress rs1 imm) = some v) : exec (.lw rd rs1 imm) s = .next (s.writeBack rd v) := by
  simp only [exec, execLw, h]

theorem exec_sw_of_writeWord {rs2 rs1 : RegIdx} {imm : BitVec 12} {s : State} {m : Memory}
    (h : s.mem.writeWord (s.effectiveAddress rs1 imm) (s.readReg rs2) = some m) :
    exec (.sw rs2 rs1 imm) s = .next ({ s with mem := m } : State).advance := by
  simp only [exec, execSw, h]

/-! ### The effective address, LW, SW -/

/-- Settles O42: the address is a register plus an immediate operand, and the number of a word made from an integer is that
integer modulo 2^32. -/
theorem effectiveAddressIsBasePlusOffset : Obligations.EffectiveAddressIsBasePlusOffset := by
  intro s rs1 imm
  rw [State.effectiveAddress, add_immValue_eq_ofInt, BitVec.toNat_ofInt]
  exact Int.toNat_of_nonneg (Int.emod_nonneg _ (by decide))

/-- Settles O43: the bound admits the word read, whose value is that of the four bytes, and LW writes it back. -/
theorem lwLoadsTheWordInBounds : Obligations.LwLoadsTheWordInBounds := by
  intro rd rs1 imm s hbound
  exact ⟨decode_encode (i := .lw rd rs1 imm) rfl, _, exec_lw_of_readWord (Memory.readWord_admitted hbound),
    s.readReg_writeBack_self _ _, s.sameRegsBut_writeBack _ _, s.writeBack_pc .., s.sameMemory_writeBack _ _⟩

/-- Settles O45: the bound admits the word write, which puts the four bytes and has the frame of `Memory.writeWord_spec`;
registers are not touched. -/
theorem swStoresTheWordInBounds : Obligations.SwStoresTheWordInBounds := by
  intro rs2 rs1 imm s hbound
  obtain ⟨m, hwrite⟩ := Memory.writeWord_admitted s.mem _ (s.readReg rs2) hbound
  obtain ⟨hsize, hbytes, hframe⟩ := Memory.writeWord_spec hwrite
  exact ⟨decode_encode (i := .sw rs2 rs1 imm) rfl, _, exec_sw_of_writeWord hwrite, hbytes, ⟨hsize, hframe⟩,
    fun _ => rfl, State.advance_pc _⟩

end Sys2Proof.Machine
end

section
/-! The branches (44_branch.md). Each of them is one write of the pc, by `execBeq_eq`, `execBne_eq` and `execBlt_eq`, so what a
write of the pc leaves unchanged is said first, and a branch adds the target that it writes. -/

namespace Sys2Proof.Machine

/-! ### The pc written -/

theorem State.sameRegs_setPc (s : State) (target : Word) : SameRegs s (s.setPc target) :=
  fun r => s.setPc_readReg target r

theorem State.sameMemory_setPc (s : State) (target : Word) : SameMemory s (s.setPc target) := by
  simp only [SameMemory, State.setPc_mem, implies_true, and_self]

/-- An instruction that only writes the pc completes with that pc and with nothing else changed. -/
theorem exec_setPc_completes {i : Instr} {s : State} {target : Word} (h : exec i s = .next (s.setPc target)) :
    ∃ t, exec i s = .next t ∧ t.pc = target ∧ SameRegs s t ∧ SameMemory s t :=
  ⟨s.setPc target, h, s.setPc_pc target, s.sameRegs_setPc target, s.sameMemory_setPc target⟩

/-! ### BEQ, BNE, BLT -/

/-- Settles O47: an even offset is what makes BEQ well-formed, and BEQ writes the pc by the equality of its registers. -/
theorem beqBranchesWhenEqual : Obligations.BeqBranchesWhenEqual := fun rs1 rs2 imm _ =>
  ⟨fun heven => decode_encode (i := .beq rs1 rs2 imm) heven, exec_setPc_completes (execBeq_eq ..)⟩

/-- Settles O48: BNE writes the pc by the inequality of its registers. -/
theorem bneBranchesWhenNotEqual : Obligations.BneBranchesWhenNotEqual := fun rs1 rs2 imm _ =>
  ⟨fun heven => decode_encode (i := .bne rs1 rs2 imm) heven, exec_setPc_completes (execBne_eq ..)⟩

/-- Settles O49: BLT and SLT have the same funct3 constant, and BLT writes the pc by the signed comparison of its
registers. -/
theorem bltBranchesWhenLessSigned : Obligations.BltBranchesWhenLessSigned := ⟨rfl, fun rs1 rs2 imm _ =>
  ⟨fun heven => decode_encode (i := .blt rs1 rs2 imm) heven, exec_setPc_completes (execBlt_eq ..)⟩⟩

end Sys2Proof.Machine
end

section
/-! The jumps (45_jump.md). Each of them is one `State.linkAndJump`, so what that leaves in the registers, the pc and the
memory is said first, and a jump adds its target. -/

namespace Sys2Proof.Machine

/-! ### Link and jump -/

theorem State.readReg_linkAndJump_self (s : State) (rd : RegIdx) (target : Word) :
    (s.linkAndJump rd target).readReg rd = writtenReg rd (s.pc + 4) :=
  State.readReg_writeReg_self s rd (s.pc + instrSize)

theorem State.sameRegsBut_linkAndJump (s : State) (rd : RegIdx) (target : Word) :
    SameRegsBut rd s (s.linkAndJump rd target) :=
  State.sameRegsBut_writeReg s rd (s.pc + instrSize)

theorem State.sameMemory_linkAndJump (s : State) (rd : RegIdx) (target : Word) :
    SameMemory s (s.linkAndJump rd target) := by
  simp only [SameMemory, State.linkAndJump_mem, implies_true, and_self]

/-! ### The target of JALR -/

/-- The mask of R154 rounds down to an even number. -/
theorem toNat_and_clearBit0 (a : Word) : (a &&& 0xFFFFFFFE).toNat = a.toNat / 2 * 2 := by
  have hshift : a &&& (0xFFFFFFFE : Word) = a >>> 1 <<< 1 := (BitVec.shiftLeft_ushiftRight (x := a) (n := 1)).symm
  rw [hshift, BitVec.toNat_shiftLeft, BitVec.toNat_ushiftRight, Nat.shiftLeft_eq, Nat.shiftRight_eq_div_pow]
  omega

/-! ### JAL, JALR -/

/-- Settles O50: an even offset is what makes JAL well-formed, and JAL links and jumps relative to the pc. -/
theorem jalLinksAndJumps : Obligations.JalLinksAndJumps := fun rd imm s =>
  ⟨fun heven => decode_encode (i := .jal rd imm) heven, s.linkAndJump rd (s.relativeTarget imm), rfl,
    s.readReg_linkAndJump_self _ _, s.sameRegsBut_linkAndJump _ _, s.linkAndJump_pc _ _, s.sameMemory_linkAndJump _ _⟩

/-- Settles O51: the decoder keeps funct3 and the meaning ignores it; the target is a value of the state before the link is
written, so it is the old register's also for rd = rs1. -/
theorem jalrLinksAndJumpsToTheOldRegister : Obligations.JalrLinksAndJumpsToTheOldRegister := by
  intro rd rs1 imm funct3 s
  refine ⟨decode_encode (i := .jalr rd rs1 imm funct3) rfl, s.linkAndJump rd (s.indirectTarget rs1 imm), rfl,
    s.readReg_linkAndJump_self _ _, s.sameRegsBut_linkAndJump _ _, ?_, s.sameMemory_linkAndJump _ _⟩
  rw [State.linkAndJump_pc, State.indirectTarget, toNat_and_clearBit0, immValue, Codec.sext32]

end Sys2Proof.Machine
end

section
/-! The loads and stores outside the memory (60_exceptions.md R163, R164). The fault of the instruction itself is
`execLw_eq_fault_iff` and `execSw_eq_fault_iff`; what is new here is how a fault of the fetched instruction reaches the host. -/

namespace Sys2Proof.Machine

/-- A fault of the instruction at the pc is the error of the STEP request, beside the unchanged state (R125). -/
theorem serve_step_of_exec_fault {c : OpcodeTable} {s : State} {w : Word} {i : Instr} {f : Fault}
    (hfetch : s.fetch = some w) (hdecode : decodeWith c w = .ok i) (hfault : exec i s = .fault f) (resetPc : Word) :
    serve c resetPc .step s = (s, .error f) :=
  stepRequest_of_fault ((stepWith_of_decode hfetch hdecode).trans hfault)

/-- Settles O44: beyond the bound LW faults whatever rd is, and the step answers that fault. -/
theorem lwOutOfBoundsFails : Obligations.LwOutOfBoundsFails := by
  intro rd rs1 imm s hbound
  have hfault : exec (.lw rd rs1 imm) s = .fault .loadOutOfBounds := execLw_eq_fault_iff.mpr ⟨rfl, hbound⟩
  exact ⟨hfault, fun _ resetPc _ hfetch hdecode => serve_step_of_exec_fault hfetch hdecode hfault resetPc⟩

/-- Settles O46: beyond the bound SW faults with no byte written, and the step answers that fault. -/
theorem swOutOfBoundsFails : Obligations.SwOutOfBoundsFails := by
  intro rs2 rs1 imm s hbound
  have hfault : exec (.sw rs2 rs1 imm) s = .fault .storeOutOfBounds := execSw_eq_fault_iff.mpr ⟨rfl, hbound⟩
  exact ⟨hfault, fun _ resetPc _ hfetch hdecode => serve_step_of_exec_fault hfetch hdecode hfault resetPc⟩

end Sys2Proof.Machine
end

section
/-! The machine just constructed (70_reset_and_hazards.md R186): its memory reads zero everywhere, so its first fetch gives
the zero word or is out of bounds. -/

namespace Sys2Proof.Machine

theorem State.fetch_construct {size : Nat} {resetPc : Word} (h : resetPc.toNat + 4 ≤ size) :
    (State.construct size resetPc).fetch = some 0 := by
  rw [State.fetch, Memory.readWord_admitted h]
  simp only [State.construct_readByte]
  rfl

/-- Settles O18: either the fetch is out of bounds or the zero word fetched has the class INVALID. -/
theorem freshMachineRunsNoProgram : Obligations.FreshMachineRunsNoProgram := by
  refine ⟨by decide, fun c n resetPc hzero => stepRequest_of_fault (StepFails.stepWith_eq ?_)⟩
  by_cases hbound : n < resetPc.toNat + 4
  · rw [if_pos hbound]
    exact .fetch hbound
  · rw [if_neg hbound]
    exact .invalid (State.fetch_construct (Nat.le_of_not_lt hbound)) hzero

end Sys2Proof.Machine
end

section
/-! The end of a run (70_reset_and_hazards.md R197): a run and a sequence of STEP requests from the same state are compared
at their first step. -/

namespace Sys2Proof.Machine

/-- `n` STEP requests from `s` all return ok and lead to `t`. -/
def StepsOk (c : OpcodeTable) (resetPc : Word) (n : Nat) (s t : State) : Prop :=
  serveAll c resetPc (List.replicate n .step) s = (t, List.replicate n .ok)

section
variable {c : OpcodeTable} {resetPc : Word} {n : Nat} {s t u : State} {r : HostReply}

theorem stepsOk_zero_iff : StepsOk c resetPc 0 s t ↔ s = t := by
  simp [StepsOk, serveAll]

theorem stepsOk_succ_of_ok (h : stepRequest c s = (u, .ok)) :
    StepsOk c resetPc (n + 1) s t ↔ StepsOk c resetPc n u t := by
  simp [StepsOk, List.replicate_succ, serveAll, serve, h, Prod.ext_iff]

theorem not_stepsOk_succ_of_failed (h : stepRequest c s = (u, r)) (hr : r ≠ .ok) :
    ¬ StepsOk c resetPc (n + 1) s t := by
  simp [StepsOk, List.replicate_succ, serveAll, serve, h, hr]

theorem runToError_succ_of_ok (h : stepRequest c s = (u, .ok)) : runToError c (n + 1) s = runToError c n u := by
  rw [runToError, h]

theorem runToError_succ_of_failed (h : stepRequest c s = (u, r)) (hr : r ≠ .ok) :
    runToError c (n + 1) s = (u, some r) := by
  rw [runToError, h]
  cases r with
  | ok => exact absurd rfl hr
  | error f => rfl
  | refused f => rfl

theorem runToError_eq_none_iff : runToError c n s = (t, none) ↔ StepsOk c resetPc n s t := by
  induction n generalizing s with
  | zero => simp [runToError, stepsOk_zero_iff]
  | succ n ih =>
    rcases hstep : stepRequest c s with ⟨u, reply⟩
    by_cases hreply : reply = .ok
    · subst hreply
      rw [runToError_succ_of_ok hstep, stepsOk_succ_of_ok hstep, ih]
    · simp [runToError_succ_of_failed hstep hreply, not_stepsOk_succ_of_failed hstep hreply]

/-- `m` counts the steps before the one that ends the run: none if the first step fails, else one more than in the run that
goes on after it. -/
theorem runToError_eq_some_iff : runToError c n s = (t, some r) ↔
    r ≠ .ok ∧ ∃ m, m < n ∧ StepsOk c resetPc m s t ∧ stepRequest c t = (t, r) := by
  induction n generalizing s with
  | zero => simp [runToError]
  | succ n ih =>
    rw [Nat.exists_lt_succ_left, stepsOk_zero_iff]
    rcases hstep : stepRequest c s with ⟨u, reply⟩
    by_cases hreply : reply = .ok
    · subst hreply
      have hfirst (hr : r ≠ .ok) : ¬ (s = t ∧ stepRequest c t = (t, r)) := by
        rintro ⟨rfl, hfail⟩
        exact hr (congrArg Prod.snd (hfail.symm.trans hstep))
      rw [runToError_succ_of_ok hstep, ih]
      simp only [stepsOk_succ_of_ok hstep]
      exact and_congr_right fun hr => (or_iff_right (hfirst hr)).symm
    · obtain rfl : u = s := stepRequest_unchanged hstep hreply
      simp only [runToError_succ_of_failed hstep hreply, not_stepsOk_succ_of_failed hstep hreply, false_and, and_false,
        exists_false, or_false]
      constructor
      · rintro ⟨⟩
        exact ⟨hreply, rfl, hstep⟩
      · rintro ⟨-, rfl, hfail⟩
        cases hstep.symm.trans hfail
        rfl

end

/-- Settles O23: each outcome of a run is one of the two equivalences above. -/
theorem runEndsAtItsFirstError : Obligations.RunEndsAtItsFirstError := fun _ _ _ _ _ =>
  ⟨fun _ => runToError_eq_some_iff, runToError_eq_none_iff⟩

end Sys2Proof.Machine
end
